-- ==== Sys2Proof/Word.lean ====
section
/-! DEFINITION. The widths the spec uses as bits: 32-bit registers and bus words, bytes of the image,
18-bit byte offsets into the aperture (spec/20_memory.md R60, spec/10_state.md R34). -/

namespace Sys2Proof

/-- A register or a bus word (R34). -/
abbrev Word := BitVec 32

/-- One byte of the image or of a channel value (R29, R33). -/
abbrev Byte := BitVec 8

/-- A byte offset into the aperture, `0x00000` to `0x3FFFF` (R60). -/
abbrev Offset := BitVec 18

end Sys2Proof
end

