-- ==== Sys2Proof/Config.lean ====
section
/-! DEFINITION. What is fixed when the block is built (spec/00_scope.md R5 to R9, spec/70_reset_and_hazards.md
R253), and the one thing the spec leaves to the schedule (R258). No step changes any of it. -/

namespace Sys2Proof

/-- The three channels: F (face buttons), D (direction), T (trick) (R9, R12). -/
inductive Chan where
  | face
  | dir
  | trick
  deriving DecidableEq, Repr

/-- How a channel's entry says that a run is longer than a count byte holds (R9, R140). -/
inductive OvfMode where
  | none
  | nibble
  deriving DecidableEq, Repr

/-- Which character-id bits go into header byte 0x08 (R8). -/
inductive CharSplit where
  | hi2
  | low2
  deriving DecidableEq, Repr

/-- The parameters a machine of this kind is built with (R5 to R8).  Operations that depend on them take
them as an argument; the machine of this package is the one at `Machine.params`. -/
structure Params where
  /-- `CAP`, the capacity of the input section in bytes (R5). -/
  cap : Nat
  /-- `MAGIC[0]` to `MAGIC[3]`, the bytes at image offsets 0 to 3 (R6). -/
  magic : Vector Byte 4
  /-- `CHAR_SPLIT` (R8). -/
  charSplit : CharSplit
  /-- `DRIFT_BIT`, in the range 0..7 (R7). -/
  driftBit : Fin 8
  deriving DecidableEq, Repr

namespace Config

/-- `CAP - 6`: an OPEN parameter, so a constant without a value; its type keeps `6 <= CAP <= 131070` (R5).
[DESIGN CHOICE: assumption 1] -/
opaque capAboveMin : Fin 131065

/-- `CAP` (R5). -/
def cap : Nat := capAboveMin.val + 6

/-- `MAGIC`, an OPEN parameter: any four bytes (R6). [DESIGN CHOICE: assumption 1] -/
opaque magic : Vector Byte 4

/-- `GCE_BASE`, where the platform puts the aperture: OPEN (R60). [DESIGN CHOICE: assumption 17] -/
opaque gceBase : Nat

/-- `CHAR_SPLIT`: `HI2` in this hardware (R8). -/
def charSplit : CharSplit := .hi2

/-- `DRIFT_BIT`: 2 in this hardware (R7). -/
def driftBit : Fin 8 := 2

/-- `MAX_RUN[c]`: 255 for every channel (R9, R140; spec/90_conflicts.md C1). -/
def maxRun : Chan → Nat
  | .face => 255
  | .dir => 255
  | .trick => 255

/-- `OVF_MODE[c]` (R9, R140). -/
def ovfMode : Chan → OvfMode
  | .face => .none
  | .dir => .none
  | .trick => .nibble

/-- A FREE VALUE: how many further bus events happen between the `n`-th accepted FINISH and its engine
step.  The spec gives no bound, only that it is finite (R258; spec/93_implementation_defined.md U6).
[DESIGN CHOICE: assumption 3] -/
opaque engineDelay : Nat → Nat

end Config

end Sys2Proof
end

