-- ==== Sys2Proof/Syntax.lean ====
section
/-! DEFINITION. The commands (spec/opcode_table.json, one constructor per row), the registers of the map
(spec/10_state.md R34), the bus events the block meets, and the record the host pushes. -/

namespace Sys2Proof

/-- The four commands (spec/30_encoding.md R81).  A command word carries no operands. -/
inductive Instr where
  /-- RESET (R100). -/
  | reset
  /-- START (R101). -/
  | start
  /-- PUSH (R120). -/
  | push
  /-- FINISH (R180, R181). -/
  | finish
  deriving DecidableEq, Repr

/-- The registers of the map, in the order of their offsets (R34). -/
inductive Reg where
  | cmd
  | status
  | sampleLo
  | sampleHi
  | sampleTag
  | metaTrack
  | metaVehicle
  | metaChar
  | metaManual
  | errTag
  | errRawLo
  | errRawHi
  | errBytes
  | frames
  | runsF
  | runsD
  | runsT
  | crc
  | capacity
  | fileSize
  deriving DecidableEq, Repr

/-- How a register may be accessed (the access column of R34). -/
inductive Access where
  | readWrite
  | readOnly
  | writeOnly
  deriving DecidableEq, Repr

/-- The sizes of a bus access (R62, R63): only `word` is accepted.  `wider` stands for every access of more
than 32 bits. [DESIGN CHOICE: assumption 10] -/
inductive AccessSize where
  | byte
  | half
  | word
  | wider
  deriving DecidableEq, Repr

/-- What can happen at the block's boundary, one event a step. -/
inductive BusEvent where
  /-- A bus write.  The data of a malformed write is never looked at (R63). -/
  | write (size : AccessSize) (off : Offset) (data : Word)
  /-- A bus read. -/
  | read (size : AccessSize) (off : Offset)
  /-- `WAIT` of the host notation: a read of STATUS, issued again until BUSY reads 0 (R72, R86).
  [DESIGN CHOICE: assumption 11] -/
  | wait
  /-- The reset input asserted and then released (R250). [DESIGN CHOICE: assumption 12] -/
  | hardwareReset
  deriving DecidableEq, Repr

/-- A record as the host's reader hands it over: six integers and the line number (R83, R85). -/
structure Record where
  a : Int
  b : Int
  item : Int
  x : Int
  y : Int
  trick : Int
  line : Word
  deriving DecidableEq, Repr

end Sys2Proof
end

