-- ==== Sys2Proof/WellFormed.lean ====
section
/-! DEFINITION. The checks on terms: a command (nothing to check: its word has no operands), a bus event
(spec/20_memory.md R62, R63), a record the host can write (spec/30_encoding.md R83), and a parameter set
(spec/00_scope.md R5, R7). -/

namespace Sys2Proof

/-- Every command is well formed: R80 gives its word no operand field that could be out of range. -/
def Instr.wf : Instr → Bool
  | .reset => true
  | .start => true
  | .push => true
  | .finish => true

/-- A bus event is well formed if its access is one the block accepts: 32 bits at a multiple of 4 (R62).  Every
other is malformed (R63). -/
def BusEvent.wf : BusEvent → Bool
  | .write size off _ => size == .word && off.toNat % 4 == 0
  | .read size off => size == .word && off.toNat % 4 == 0
  | .wait => true
  | .hardwareReset => true

/-- A raw field that an 8-bit two's-complement register field can hold (R83). -/
def rawFieldOk (r : Int) : Bool := decide (-128 ≤ r) && decide (r ≤ 127)

/-- A record whose six fields the host can write unsaturated (R83). -/
def Record.wf (r : Record) : Bool :=
  rawFieldOk r.a && rawFieldOk r.b && rawFieldOk r.item && rawFieldOk r.x && rawFieldOk r.y &&
    rawFieldOk r.trick

/-- The legal parameter sets: `6 <= CAP <= 131070` (R5).  `DRIFT_BIT <= 7` (R7) and the four bytes of
`MAGIC` (R6) stand in the types. -/
def Params.wf (P : Params) : Bool := decide (6 ≤ P.cap) && decide (P.cap ≤ 131070)

end Sys2Proof
end

