-- ==== Sys2Proof/Decode.lean ====
section
/-! DEFINITION. Command words (spec/30_encoding.md R80 to R82), accepted accesses (spec/20_memory.md R62) and
register offsets (spec/10_state.md R34),
each with its other direction. -/

namespace Sys2Proof

/-- Why a word selects no command (R82); it then executes as the reserved command (R103). -/
inductive DecodeError where
  /-- Bits 31:8 are not all zero. -/
  | zeroFieldSet (zero : BitVec 24)
  /-- Bits 31:8 are zero and OP is 0x00 or 0x05 to 0xFF. -/
  | reservedOp (op : Byte)
  deriving DecidableEq, Repr

/-- The OP field, bits 7:0 (R80). -/
def opField (w : Word) : Byte := w.extractLsb' 0 8

/-- The ZERO field, bits 31:8 (R80). -/
def zeroField (w : Word) : BitVec 24 := w.extractLsb' 8 24

/-- The command a word written to CMD selects (R81), or the reason it is reserved (R82). -/
def decode (w : Word) : Except DecodeError Instr :=
  if zeroField w ≠ 0 then .error (.zeroFieldSet (zeroField w))
  else if opField w = 0x01 then .ok .reset
  else if opField w = 0x02 then .ok .start
  else if opField w = 0x03 then .ok .push
  else if opField w = 0x04 then .ok .finish
  else .error (.reservedOp (opField w))

/-- The word of a command (R81). -/
def encode : Instr → Word
  | .reset => 0x00000001
  | .start => 0x00000002
  | .push => 0x00000003
  | .finish => 0x00000004

/-- The decoder's answer for a word numbered as spec/opcode_table.json numbers it.  A command word is a
32-bit number on the bus and has no byte lanes (R65, R80), so the number is the word.
[DESIGN CHOICE: assumption 19] -/
def decodeTableWord (nbits w : Nat) : Option Instr :=
  if nbits ≤ 32 ∧ w < 2 ^ 32 then (decode (BitVec.ofNat 32 w)).toOption else none

/-- The offset column of the register map (R34). -/
def Reg.offset : Reg → Offset
  | .cmd => 0x000
  | .status => 0x004
  | .sampleLo => 0x008
  | .sampleHi => 0x00C
  | .sampleTag => 0x010
  | .metaTrack => 0x014
  | .metaVehicle => 0x018
  | .metaChar => 0x01C
  | .metaManual => 0x020
  | .errTag => 0x024
  | .errRawLo => 0x028
  | .errRawHi => 0x02C
  | .errBytes => 0x030
  | .frames => 0x034
  | .runsF => 0x038
  | .runsD => 0x03C
  | .runsT => 0x040
  | .crc => 0x044
  | .capacity => 0x048
  | .fileSize => 0x04C

/-- The access column of the register map (R34). -/
def Reg.access : Reg → Access
  | .cmd => .writeOnly
  | .status => .readOnly
  | .sampleLo => .readWrite
  | .sampleHi => .readWrite
  | .sampleTag => .readWrite
  | .metaTrack => .readWrite
  | .metaVehicle => .readWrite
  | .metaChar => .readWrite
  | .metaManual => .readWrite
  | .errTag => .readOnly
  | .errRawLo => .readOnly
  | .errRawHi => .readOnly
  | .errBytes => .readOnly
  | .frames => .readOnly
  | .runsF => .readOnly
  | .runsD => .readOnly
  | .runsT => .readOnly
  | .crc => .readOnly
  | .capacity => .readOnly
  | .fileSize => .readOnly

/-- The one access the block accepts: 32 bits at a multiple of 4 (R62).  Every other is malformed (R63). -/
def accessOk (size : AccessSize) (off : Offset) : Bool := size == .word && off.toNat % 4 == 0

/-- Every register of the map, in the order of its offsets (R34). -/
def allRegs : List Reg :=
  [.cmd, .status, .sampleLo, .sampleHi, .sampleTag, .metaTrack, .metaVehicle, .metaChar, .metaManual,
   .errTag, .errRawLo, .errRawHi, .errBytes, .frames, .runsF, .runsD, .runsT, .crc, .capacity, .fileSize]

/-- The register at an offset, if the map names one there (R34). -/
def regAt (off : Offset) : Option Reg := allRegs.find? (fun r => r.offset == off)

end Sys2Proof
end

