-- ==== Sys2Proof/Machine/State.lean ====
section
/-! DEFINITION. Everything the spec gives the block to hold (spec/10_state.md R20 to R41), as plain data, and
its value at reset (spec/70_reset_and_hazards.md R250).  The model's own fields stand apart, in `Env`. -/

namespace Sys2Proof.Machine

/-- The control state machine `S.state` (R21). -/
inductive Ctl where
  /-- No encode in progress. -/
  | idle
  /-- An encode is in progress and accepts samples. -/
  | accept
  /-- FINISH has been written and the engine has not yet performed it. -/
  | finishing
  /-- The encode succeeded and the image is valid. -/
  | done
  /-- The encode was aborted by an error. -/
  | error
  deriving DecidableEq, Repr

/-- The error codes `S.err`; codes 5 to 7 are never produced, so they have no constructor (R25, R220). -/
inductive ErrCode where
  | none
  | malformedRecord
  | emptyRecording
  | inputSectionOverflow
  | invalidMetadata
  deriving DecidableEq, Repr

/-- A sealed entry, the source's RunLengthEntry (R29). -/
structure Entry where
  /-- The channel value: the full byte for F and D, the trick code for T. -/
  value : Byte
  /-- The run's length. -/
  count : Nat
  deriving DecidableEq, Repr

/-- The state of one channel's run-length encoder (R29). -/
structure Channel where
  /-- Finished entries, first sealed first. -/
  sealed : List Entry
  /-- The value of the open run. -/
  curVal : Byte
  /-- The length of the open run; 0 means no run is open. -/
  curCnt : Nat
  deriving DecidableEq, Repr

/-- A channel with no entry and no open run (R29). -/
def Channel.empty : Channel := { sealed := [], curVal := 0, curCnt := 0 }

/-- The latched metadata `S.meta` (R28). -/
structure RaceMeta where
  track : BitVec 6
  vehicle : BitVec 6
  character : BitVec 6
  manual : BitVec 1
  deriving DecidableEq, Repr

/-- Bytes by index.  In canonical form the indices rise strictly and no listed byte is 0, which is what an
unlisted index reads as (R33; assumption 7). -/
abbrev Memory := List Host.Cell

/-- The model's own fields: the world outside the block and the schedule, not state of the block. -/
structure Env where
  /-- The bus events still to come, oldest first (R71; assumption 2). -/
  bus : List BusEvent
  /-- The data of the host's latest read (assumption 5). -/
  rdata : Word
  /-- While FINISHING: how many more bus events come before the engine step (R258; assumption 3). -/
  engineWait : Nat
  /-- How many FINISH commands have been accepted: the free value's argument (assumption 3). -/
  finishes : Nat
  deriving DecidableEq, Repr

/-- The machine. -/
structure State where
  /-- `S.state` (R21). -/
  ctl : Ctl
  /-- `S.illegal`, sticky (R24). -/
  illegal : Bool
  /-- `S.err` (R25a). -/
  err : ErrCode
  /-- `S.err_fields` (R25b). -/
  errFields : BitVec 6
  /-- `S.err_tag` (R25c). -/
  errTag : Word
  /-- `S.err_raw_lo` (R25d). -/
  errRawLo : Word
  /-- `S.err_raw_hi` (R25d). -/
  errRawHi : Word
  /-- `S.err_bytes` (R25e). -/
  errBytes : Word
  /-- SAMPLE_LO (R26). -/
  sampleLo : Word
  /-- Bits 15:0 of SAMPLE_HI; bits 31:16 are reserved and hold nothing (R26). [DEDUCED: assumption 6] -/
  sampleHi : BitVec 16
  /-- SAMPLE_TAG (R26). -/
  sampleTag : Word
  /-- META_TRACK (R27). -/
  metaTrack : Word
  /-- META_VEHICLE (R27). -/
  metaVehicle : Word
  /-- META_CHAR (R27). -/
  metaChar : Word
  /-- META_MANUAL (R27). -/
  metaManual : Word
  /-- `S.meta` (R28). -/
  latched : RaceMeta
  /-- `S.ch[F]` (R29). -/
  faceCh : Channel
  /-- `S.ch[D]` (R29). -/
  dirCh : Channel
  /-- `S.ch[T]` (R29). -/
  trickCh : Channel
  /-- `S.frames` (R30). -/
  frames : Word
  /-- `S.img` (R33). -/
  img : Memory
  /-- `S.crc` (R33). -/
  crc : Word
  /-- The model's own fields. -/
  env : Env
  deriving DecidableEq, Repr

/-- Why the machine could stop with a fault.  It cannot: spec/60_exceptions.md gives the block no trap, and
every access and every word has a defined effect (R63, R67, R68, R82, R227), so there is no reason to list. -/
inductive Fault where
  deriving DecidableEq, Repr

/-- Why the machine could refuse an instruction. -/
inductive Refusal where
  /-- Raised by `exec` for an instruction without a meaning yet.  Safe.  No arm raises it now. -/
  | notModelled (mnemonic : String)
  deriving DecidableEq, Repr

/-- The world outside as the model starts it: nothing to come, nothing read.
[DESIGN CHOICE: assumptions 2, 3 and 5; these are the model's own fields] -/
def Env.reset : Env := { bus := [], rdata := 0, engineWait := 0, finishes := 0 }

/-- The machine right after reset: the table of R250 (R41). -/
def State.reset : State where
  ctl := .idle
  illegal := false
  err := .none
  errFields := 0
  errTag := 0
  errRawLo := 0
  errRawHi := 0
  errBytes := 0
  sampleLo := 0
  sampleHi := 0
  sampleTag := 0
  metaTrack := 0
  metaVehicle := 0
  metaChar := 0
  metaManual := 0
  latched := { track := 0, vehicle := 0, character := 0, manual := 0 }
  faceCh := Channel.empty
  dirCh := Channel.empty
  trickCh := Channel.empty
  frames := 0
  img := []
  crc := 0
  env := Env.reset

end Sys2Proof.Machine
end

