-- ==== Sys2Proof/Machine/Ops.lean ====
section
/-! DEFINITION. The shared operations: numbers and byte order, derived sizes, the image as memory, channels,
raising an error and leaving one, and the reset of the block. -/

namespace Sys2Proof.Machine

/-! ### Numbers and byte order -/

/-- `sat32(n) = min(n, 0xFFFFFFFF)` as a 32-bit number (R11). -/
def sat32 (n : Nat) : Word := BitVec.ofNat 32 (min n 0xFFFFFFFF)

/-- `be16(n) = [n >> 8, n & 0xFF]` (R181). -/
def be16 (n : Nat) : List Byte := [BitVec.ofNat 8 (n >>> 8), BitVec.ofNat 8 n]

/-- `be32(n)`, most significant byte first (R181). -/
def be32 (w : Word) : List Byte :=
  [w.extractLsb' 24 8, w.extractLsb' 16 8, w.extractLsb' 8 8, w.extractLsb' 0 8]

/-- Four bytes packed into a bus word, the first most significant (R65). -/
def packWord (b0 b1 b2 b3 : Byte) : Word := b0 ++ b1 ++ b2 ++ b3

/-! ### Parameters and derived sizes -/

/-- The parameters this machine is built with (R253). -/
def params : Params :=
  { cap := Config.cap, magic := Config.magic, charSplit := Config.charSplit, driftBit := Config.driftBit }

/-- `HDR_SIZE` (R10). -/
def hdrSize : Nat := 0x88

/-- `SEC_BASE`, where the input section starts in the image (R10). -/
def secBase : Nat := 0x8E

/-- `CRC_OFF = 0x8E + CAP` (R10). -/
def crcOff (P : Params) : Nat := 0x8E + P.cap

/-- `FILE_SIZE = 0x92 + CAP` (R10). -/
def fileSize (P : Params) : Nat := 0x92 + P.cap

/-- `OUT_WORDS = ceil(FILE_SIZE / 4)` (R61). -/
def outWords (P : Params) : Nat := (fileSize P + 3) / 4

/-- Where an offset of the aperture lies in the host's physical address space (R60). -/
def physicalAddress (off : Offset) : Nat := Config.gceBase + off.toNat

/-! ### The image as memory -/

/-- What a byte that nothing has written reads as: the image resets to zeros (R33, R250). -/
def Memory.unlisted : Byte := 0

/-- Byte `a` of the memory. -/
def Memory.read : Memory → Nat → Byte
  | [], _ => Memory.unlisted
  | (k, b) :: rest, a => if a = k then b else Memory.read rest a

/-- The canonical form above a bound: indices rise strictly from `lo` on and no byte is the unlisted one. -/
def Memory.wfFrom : Nat → Memory → Bool
  | _, [] => true
  | lo, (k, b) :: rest => decide (lo ≤ k) && decide (b ≠ Memory.unlisted) && Memory.wfFrom (k + 1) rest

/-- The canonical form, so that equal memories are equal data. -/
def Memory.wf (m : Memory) : Bool := Memory.wfFrom 0 m

/-- Every byte reads 0: the cleared image (R33). -/
def Memory.clear : Memory := []

/-- The memory that holds `bytes` from index `base` on and nothing else: the one write the engine does to
the image (R193). -/
def Memory.load : Nat → List Byte → Memory
  | _, [] => []
  | base, b :: rest =>
    if b = Memory.unlisted then Memory.load (base + 1) rest else (base, b) :: Memory.load (base + 1) rest

/-! ### Channels -/

/-- `S.ch[c]` (R29). -/
def State.ch (s : State) : Chan → Channel
  | .face => s.faceCh
  | .dir => s.dirCh
  | .trick => s.trickCh

/-- `S.ch[c] <- ch`. -/
def State.setCh (s : State) (c : Chan) (ch : Channel) : State :=
  match c with
  | .face => { s with faceCh := ch }
  | .dir => { s with dirCh := ch }
  | .trick => { s with trickCh := ch }

/-- `nRuns(c)`: the entries the channel would hold if it were sealed now (R31). -/
def Channel.nRuns (ch : Channel) : Nat := ch.sealed.length + (if ch.curCnt > 0 then 1 else 0)

/-- `nRuns(F) + nRuns(D) + nRuns(T)` (R32). -/
def State.totalRuns (s : State) : Nat := s.faceCh.nRuns + s.dirCh.nRuns + s.trickCh.nRuns

/-! ### Errors: entry and exit -/

/-- What `raise Error(code, info)` is given; what is not given is 0 (R224). -/
structure ErrorInfo where
  code : ErrCode
  fields : BitVec 6 := 0
  tag : Word := 0
  rawLo : Word := 0
  rawHi : Word := 0
  bytes : Word := 0
  deriving DecidableEq, Repr

/-- `raise Error(code, info)`: latch the context and enter ERROR; nothing else changes (R224). -/
def raiseError (e : ErrorInfo) (s : State) : State :=
  { s with
    err := e.code
    errFields := e.fields
    errTag := e.tag
    errRawLo := e.rawLo
    errRawHi := e.rawHi
    errBytes := e.bytes
    ctl := .error }

/-- The error registers cleared, as START does before anything can be raised (R25, R101, R225). -/
def clearError (s : State) : State :=
  { s with err := .none, errFields := 0, errTag := 0, errRawLo := 0, errRawHi := 0, errBytes := 0 }

/-- The encode in progress, its image and its metadata cleared, as START does (R101). -/
def clearEncode (s : State) : State :=
  { s with
    faceCh := Channel.empty
    dirCh := Channel.empty
    trickCh := Channel.empty
    frames := 0
    img := Memory.clear
    crc := 0
    latched := { track := 0, vehicle := 0, character := 0, manual := 0 } }

/-- Every state element of the block at its reset value (R100, R250).  The world outside is not the block's.
[DEDUCED: assumption 13] -/
def resetBlock (s : State) : State := { State.reset with env := s.env }

end Sys2Proof.Machine
end

