-- ==== Sys2Proof/Machine/Operands.lean ====
section
/-! DEFINITION. The operands of PUSH and START (spec/30_encoding.md R83 to R85), their checks
(spec/41_sample_input.md R121, R123, spec/40_control.md R110) and the channel values of a sample
(spec/41_sample_input.md R124 to R126). -/

namespace Sys2Proof.Machine

/-! ### PUSH: the six raw fields -/

/-- The six fields of one frame sample, as integers (R83). -/
structure Sample where
  a : Int
  b : Int
  item : Int
  x : Int
  y : Int
  trick : Int
  deriving DecidableEq, Repr

/-- `sext_8` of the byte of `w` that starts at bit `lo` (R11, R83). -/
def signedByteAt {n : Nat} (w : BitVec n) (lo : Nat) : Int := (w.extractLsb' lo 8).toInt

/-- The fields of a SAMPLE_LO and a SAMPLE_HI (R83). -/
def sampleOf (lo : Word) (hi : BitVec 16) : Sample where
  a := signedByteAt lo 0
  b := signedByteAt lo 8
  item := signedByteAt lo 16
  x := signedByteAt lo 24
  y := signedByteAt hi 0
  trick := signedByteAt hi 8

/-- The sample PUSH reads (R83, R254). -/
def State.sample (s : State) : Sample := sampleOf s.sampleLo s.sampleHi

/-- A 6-bit mask, bit 0 first. -/
def mask6 (b0 b1 b2 b3 b4 b5 : Bool) : BitVec 6 :=
  BitVec.ofBool b5 ++ BitVec.ofBool b4 ++ BitVec.ofBool b3 ++ BitVec.ofBool b2 ++ BitVec.ofBool b1 ++
    BitVec.ofBool b0

/-- `lo <= v <= hi` fails. -/
def outside (lo hi v : Int) : Bool := !(decide (lo ≤ v) && decide (v ≤ hi))

/-- FieldCheck: bit `k` is set if field `k` of the record order is out of range (R121). -/
def fieldCheck (p : Sample) : BitVec 6 :=
  mask6 (outside 0 1 p.a) (outside 0 1 p.b) (outside 0 1 p.item) (outside (-7) 7 p.x) (outside (-7) 7 p.y)
    (outside 0 4 p.trick)

/-! ### PUSH: the channel values -/

/-- FaceValue: A at bit 0, B at bit 1, ITEM at bit 2 (R124). -/
def faceValue (p : Sample) : Byte :=
  BitVec.ofInt 8 p.a ||| (BitVec.ofInt 8 p.b <<< 1) ||| (BitVec.ofInt 8 p.item <<< 2)

/-- DirValue: biased Y in the high nibble, biased X in the low one (R125). -/
def dirValue (p : Sample) : Byte := (BitVec.ofInt 8 (p.y + 7) <<< 4) ||| BitVec.ofInt 8 (p.x + 7)

/-- TrickValue: the trick code itself (R126). -/
def trickValue (p : Sample) : Byte := BitVec.ofInt 8 p.trick

/-- The value a sample presents to a channel (R120). -/
def channelValue (p : Sample) : Chan → Byte
  | .face => faceValue p
  | .dir => dirValue p
  | .trick => trickValue p

/-! ### The primary reason of a malformed record -/

/-- The reason classes (R123). -/
inductive Reason where
  | button
  | stick
  | trick
  deriving DecidableEq, Repr

/-- The class of the lowest set bit of ERR_FIELDS; none if no bit is set (R123). -/
def primaryReason (fields : BitVec 6) : Option Reason :=
  if fields.getLsbD 0 || fields.getLsbD 1 || fields.getLsbD 2 then some .button
  else if fields.getLsbD 3 || fields.getLsbD 4 then some .stick
  else if fields.getLsbD 5 then some .trick
  else none

/-- The text a host reports for a reason (R123). -/
def Reason.text : Reason → String
  | .button => "button out of range"
  | .stick => "stick out of range"
  | .trick => "trick out of range"

/-! ### START: the metadata -/

/-- `CHAR_MAX` (R110). -/
def charMax (P : Params) : Nat :=
  match P.charSplit with
  | .hi2 => 63
  | .low2 => 15

/-- MetaCheck: which metadata fields are out of range; bits 5:4 stay 0 (R110). -/
def metaCheck (P : Params) (track vehicle character manual : Word) : BitVec 6 :=
  mask6 (decide (track.toNat > 63)) (decide (vehicle.toNat > 63)) (decide (character.toNat > charMax P))
    (decide (manual.toNat > 1)) false false

/-- MetaCheck of the META registers (R84, R101). -/
def State.metaBad (P : Params) (s : State) : BitVec 6 :=
  metaCheck P s.metaTrack s.metaVehicle s.metaChar s.metaManual

/-- The META registers at the widths of the latch (R28, R111). -/
def State.metaOperands (s : State) : RaceMeta where
  track := s.metaTrack.setWidth 6
  vehicle := s.metaVehicle.setWidth 6
  character := s.metaChar.setWidth 6
  manual := s.metaManual.setWidth 1

/-! ### The host's packing -/

/-- A raw integer brought into `-128..127` (R83). -/
def saturateRaw (r : Int) : Int := max (-128) (min 127 r)

/-- The SAMPLE_LO word of a record (R85). -/
def packSampleLo (r : Record) : Word :=
  BitVec.ofInt 8 (saturateRaw r.x) ++ BitVec.ofInt 8 (saturateRaw r.item) ++
    BitVec.ofInt 8 (saturateRaw r.b) ++ BitVec.ofInt 8 (saturateRaw r.a)

/-- The SAMPLE_HI word of a record (R85). -/
def packSampleHi (r : Record) : Word :=
  (BitVec.ofInt 8 (saturateRaw r.trick) ++ BitVec.ofInt 8 (saturateRaw r.y) : BitVec 16).setWidth 32

end Sys2Proof.Machine
end

