-- ==== Sys2Proof/Machine/Flags.lean ====
section
/-! DEFINITION. STATUS and what it shows: the codes of the control state and of the errors, BUSY, OVF and
the sticky ILLEGAL flag (spec/10_state.md R21, R24, R32, R35, spec/60_exceptions.md R220, R223). -/

namespace Sys2Proof.Machine

/-- The STATUS.STATE code (R21). -/
def Ctl.code : Ctl → BitVec 3
  | .idle => 0
  | .accept => 1
  | .finishing => 2
  | .done => 3
  | .error => 4

/-- The STATUS.ERR code (R220). -/
def ErrCode.code : ErrCode → BitVec 3
  | .none => 0
  | .malformedRecord => 1
  | .emptyRecording => 2
  | .inputSectionOverflow => 3
  | .invalidMetadata => 4

/-- BUSY: a FINISH is pending (R35). -/
def State.busy (s : State) : Bool := s.ctl == .finishing

/-- OVF: the entries so far already exceed the capacity (R32). -/
def State.ovf (P : Params) (s : State) : Bool := decide (2 * s.totalRuns > P.cap)

/-- The STATUS word, field by field from bit 31 down (R35). -/
def State.status (P : Params) (s : State) : Word :=
  0#10 ++ s.errFields ++ 0#5 ++ s.err.code ++ 0#2 ++ BitVec.ofBool s.illegal ++
    BitVec.ofBool (s.ovf P) ++ BitVec.ofBool s.busy ++ s.ctl.code

/-- "Ignored and flags ILLEGAL": nothing changes but the sticky flag (R11, R24, R223). -/
def flagIllegal (s : State) : State := { s with illegal := true }

end Sys2Proof.Machine
end

