-- ==== Sys2Proof/Machine/Control.lean ====
section
/-! DEFINITION. RESET, START and the reserved command (spec/40_control.md). -/

namespace Sys2Proof.Machine

/-- RESET: the block's reset state, in every state (R100, R104). -/
def execReset (s : State) : Host.Outcome State Fault Refusal := .next (resetBlock s)

/-- What START does outside FINISHING: clear the encode and the errors, check the metadata, then latch it
and accept samples, or raise INVALID_METADATA (R101, R110, R111). -/
def beginEncode (P : Params) (s : State) : State :=
  let cleared := clearError (clearEncode s)
  let bad := s.metaBad P
  if bad ≠ 0 then raiseError { code := .invalidMetadata, fields := bad } cleared
  else { cleared with latched := s.metaOperands, ctl := .accept }

/-- START; illegal in FINISHING (R101, R104, R255). -/
def execStart (s : State) : Host.Outcome State Fault Refusal :=
  if s.ctl = .finishing then .next (flagIllegal s) else .next (beginEncode params s)

/-- The reserved command: only ILLEGAL changes (R82, R103). -/
def reservedCommand (s : State) : Host.Outcome State Fault Refusal := .next (flagIllegal s)

end Sys2Proof.Machine
end

