-- ==== Sys2Proof/Machine/Checksum.lean ====
section
/-! DEFINITION. The CRC-32 generator (spec/44_section_checksum.md R188). -/

namespace Sys2Proof.Machine

/-- The reflected polynomial (R188). -/
def crcPoly : Word := 0xEDB88320

/-- One bit of the bit-serial definition (R188). -/
def crcBit (r : Word) : Word := if r.getLsbD 0 then (r >>> 1) ^^^ crcPoly else r >>> 1

/-- `crcBit` repeated `n` times (R188). -/
def crcBits : Nat → Word → Word
  | 0, r => r
  | n + 1, r => crcBits n (crcBit r)

/-- One byte into the register: exclusive or, then eight bits (R188). -/
def crcByte (r : Word) (b : Byte) : Word := crcBits 8 (r ^^^ b.setWidth 32)

/-- `CRC32(bytes)` (R188). -/
def crc32 (bytes : List Byte) : Word := bytes.foldl crcByte 0xFFFFFFFF ^^^ 0xFFFFFFFF

end Sys2Proof.Machine
end

