-- ==== Sys2Proof/Machine/Header.lean ====
section
/-! DEFINITION. The header formatter, a pure function of the latched metadata (spec/43_header.md). -/

namespace Sys2Proof.Machine

/-- The character bits of byte 0x08 (R162). -/
def charHi (split : CharSplit) (ch : BitVec 6) : BitVec 2 :=
  match split with
  | .hi2 => ch.extractLsb' 4 2
  | .low2 => ch.extractLsb' 0 2

/-- Byte `i` of the header block (R161 to R166). -/
def headerByte (P : Params) (m : RaceMeta) (i : Nat) : Byte :=
  if h : i < 4 then P.magic[i]
  else if i = 0x07 then m.track.setWidth 8 <<< 2
  else if i = 0x08 then (m.vehicle.setWidth 8 <<< 2) ||| (charHi P.charSplit m.character).setWidth 8
  else if i = 0x09 then m.character.setWidth 8 <<< 4
  else if i = 0x0D then (1#1 - m.manual).setWidth 8 <<< P.driftBit.val
  else 0

/-- `HeaderBuild(meta)`: exactly `HDR_SIZE` bytes (R160). -/
def headerBuild (P : Params) (m : RaceMeta) : List Byte := (List.range hdrSize).map (headerByte P m)

end Sys2Proof.Machine
end

