-- ==== Sys2Proof/Machine/Rle.lean ====
section
/-! DEFINITION. The run-length encoder of a channel: presenting a value, sealing, and the bytes of an entry
(spec/42_rle.md). -/

namespace Sys2Proof.Machine

/-- RleStep on one channel with maximum run `M`: seed, extend, or seal and start a new run (R141). -/
def Channel.rleStep (M : Nat) (v : Byte) (ch : Channel) : Channel :=
  if ch.curCnt = 0 then { ch with curVal := v, curCnt := 1 }
  else if v = ch.curVal ∧ ch.curCnt < M then { ch with curCnt := ch.curCnt + 1 }
  else { sealed := ch.sealed ++ [{ value := ch.curVal, count := ch.curCnt }], curVal := v, curCnt := 1 }

/-- `RleStep(c, v)`: only channel `c` is read or written (R141, R150). -/
def rleStep (c : Chan) (v : Byte) (s : State) : State :=
  s.setCh c ((s.ch c).rleStep (Config.maxRun c) v)

/-- `Seal(c)` on one channel: the open run, if there is one, becomes the last entry (R142). -/
def Channel.closeRun (ch : Channel) : Channel :=
  if ch.curCnt > 0 then
    { ch with sealed := ch.sealed ++ [{ value := ch.curVal, count := ch.curCnt }], curCnt := 0 }
  else ch

/-- The three channels sealed (R183). -/
def sealChannels (s : State) : State :=
  { s with faceCh := s.faceCh.closeRun, dirCh := s.dirCh.closeRun, trickCh := s.trickCh.closeRun }

/-- OvfNibble: `((n - 255) >> 8) & 0xF` above 255, else 0 (R148). -/
def ovfNibble (n : Nat) : Nat := if n > 255 then ((n - 255) >>> 8) &&& 0xF else 0

/-- The two bytes of an entry, value byte first (R146 for NONE, R147 for NIBBLE). -/
def entryBytes (mode : OvfMode) (e : Entry) : List Byte :=
  match mode with
  | .none => [e.value, BitVec.ofNat 8 e.count]
  | .nibble => [(e.value <<< 4) ||| BitVec.ofNat 8 (ovfNibble e.count), BitVec.ofNat 8 (min e.count 255)]

/-- The bytes of a list of entries, in order (R184). -/
def serializeEntries (mode : OvfMode) (es : List Entry) : List Byte := es.flatMap (entryBytes mode)

/-- `Ser(c)` (R184). -/
def serialize (c : Chan) (s : State) : List Byte :=
  serializeEntries (Config.ovfMode c) (s.ch c).sealed

end Sys2Proof.Machine
end

