-- ==== Sys2Proof/Machine/Finish.lean ====
section
/-! DEFINITION. FINISH: its host half (spec/44_section_checksum.md R180) and its engine half, with the
section assembler and the output image (R181 to R195). -/

namespace Sys2Proof.Machine

/-- FINISH accepted: FINISHING, and the schedule draws how long the engine waits (R180, R258).
[DESIGN CHOICE: assumption 3, for the two fields of `env`] -/
def requestFinish (s : State) : State :=
  { s with
    ctl := .finishing
    env := { s.env with
      engineWait := Config.engineDelay s.env.finishes
      finishes := s.env.finishes + 1 } }

/-- FINISH, host half; legal only in ACCEPT (R104, R180). -/
def execFinish (s : State) : Host.Outcome State Fault Refusal :=
  if s.ctl ≠ .accept then .next (flagIllegal s) else .next (requestFinish s)

/-- `SEC`: the serialized entries, channels in the order F, D, T (R184). -/
def sectionBytes (s : State) : List Byte :=
  serialize .face s ++ serialize .dir s ++ serialize .trick s

/-- `PSEC`: the section padded with zeros to `CAP` bytes (R186). -/
def padSection (P : Params) (sec : List Byte) : List Byte :=
  sec ++ List.replicate (P.cap - sec.length) 0

/-- `IH`: the three run counts, big-endian (R187). -/
def inputHeader (s : State) : List Byte :=
  be16 s.faceCh.sealed.length ++ be16 s.dirCh.sealed.length ++ be16 s.trickCh.sealed.length

/-- `CRC32(PSEC)`: the checksum covers the padded section and nothing else (R190). -/
def sectionCrc (P : Params) (s : State) : Word := crc32 (padSection P (sectionBytes s))

/-- The bytes of the whole image: header, counts, section, checksum (R191, R192, R195). -/
def imageBytes (P : Params) (s : State) : List Byte :=
  headerBuild P s.latched ++ inputHeader s ++ padSection P (sectionBytes s) ++ be32 (sectionCrc P s)

/-- The engine's step on a pending FINISH (R181). -/
def engineStep (P : Params) (s : State) : State :=
  if s.frames = 0 then raiseError { code := .emptyRecording } s
  else
    let closed := sealChannels s
    if (sectionBytes closed).length > P.cap then
      raiseError { code := .inputSectionOverflow, bytes := sat32 (sectionBytes closed).length } closed
    else
      { closed with
        img := Memory.load 0 (imageBytes P closed)
        crc := sectionCrc P closed
        ctl := .done }

end Sys2Proof.Machine
end

