-- ==== Sys2Proof/Machine/Sample.lean ====
section
/-! DEFINITION. PUSH (spec/41_sample_input.md R120 to R127). -/

namespace Sys2Proof.Machine

/-- The three channels fed with an accepted sample, and the sample counted (R120, R127). -/
def acceptSample (p : Sample) (s : State) : State :=
  let fed := rleStep .trick (trickValue p) (rleStep .dir (dirValue p) (rleStep .face (faceValue p) s))
  { fed with frames := sat32 (s.frames.toNat + 1) }

/-- The rejection of the sample in the operand registers, with its context (R120, R122). -/
def rejectSample (bad : BitVec 6) (s : State) : State :=
  raiseError
    { code := .malformedRecord
      fields := bad
      tag := s.sampleTag
      rawLo := s.sampleLo
      rawHi := s.sampleHi.setWidth 32 } s

/-- PUSH; legal only in ACCEPT (R104, R120). -/
def execPush (s : State) : Host.Outcome State Fault Refusal :=
  if s.ctl ≠ .accept then .next (flagIllegal s)
  else if fieldCheck s.sample ≠ 0 then .next (rejectSample (fieldCheck s.sample) s)
  else .next (acceptSample s.sample s)

end Sys2Proof.Machine
end

