-- ==== Sys2Proof/Machine/Dispatch.lean ====
section
/-! DEFINITION. The meaning of each command (spec/opcode_table.json; legality per state: R104). -/

namespace Sys2Proof.Machine

def exec (i : Instr) (s : State) : Host.Outcome State Fault Refusal :=
  match i with
  | .reset => Sys2Proof.Machine.execReset s
  | .start => Sys2Proof.Machine.execStart s
  | .push => Sys2Proof.Machine.execPush s
  | .finish => Sys2Proof.Machine.execFinish s

end Sys2Proof.Machine
end

