-- ==== Sys2Proof/Machine/Bus.lean ====
section
/-! DEFINITION. The aperture: what a bus read returns, what a bus write does, and one event of the host's
side (spec/20_memory.md R60 to R74, spec/10_state.md R34 to R39, spec/70_reset_and_hazards.md R250, R255). -/

namespace Sys2Proof.Machine

/-! ### Reads -/

/-- The value a register reads as (R34 to R39, R67). -/
def readReg (P : Params) (s : State) : Reg → Word
  | .cmd => 0
  | .status => s.status P
  | .sampleLo => s.sampleLo
  | .sampleHi => s.sampleHi.setWidth 32
  | .sampleTag => s.sampleTag
  | .metaTrack => s.metaTrack
  | .metaVehicle => s.metaVehicle
  | .metaChar => s.metaChar
  | .metaManual => s.metaManual
  | .errTag => s.errTag
  | .errRawLo => s.errRawLo
  | .errRawHi => s.errRawHi
  | .errBytes => s.errBytes
  | .frames => s.frames
  | .runsF => sat32 s.faceCh.nRuns
  | .runsD => sat32 s.dirCh.nRuns
  | .runsT => sat32 s.trickCh.nRuns
  | .crc => s.crc
  | .capacity => BitVec.ofNat 32 P.cap
  | .fileSize => BitVec.ofNat 32 (fileSize P)

/-- `Img'[i]`: the image byte, and 0 from FILE_SIZE on (R65). -/
def imageByte (P : Params) (s : State) (i : Nat) : Byte :=
  if i < fileSize P then s.img.read i else 0

/-- Word `k` of the output window: the packed image bytes in DONE, 0 in every other state (R65, R66). -/
def windowWord (P : Params) (s : State) (k : Nat) : Word :=
  if s.ctl = .done then
    packWord (imageByte P s (4 * k)) (imageByte P s (4 * k + 1)) (imageByte P s (4 * k + 2))
      (imageByte P s (4 * k + 3))
  else 0

/-- The word of the output window an offset lies in, if it lies in the window (R61, R66). -/
def windowIndex (P : Params) (off : Offset) : Option Nat :=
  if 0x1000 ≤ off.toNat ∧ off.toNat < 0x1000 + 4 * outWords P then some ((off.toNat - 0x1000) / 4)
  else none

/-- What an accepted read returns: a register, a window word, or 0 for reserved and unmapped offsets
(R34, R66 to R68). -/
def readWord (P : Params) (s : State) (off : Offset) : Word :=
  match regAt off with
  | some r => readReg P s r
  | none =>
    match windowIndex P off with
    | some k => windowWord P s k
    | none => 0

/-- What a bus read returns; a malformed read returns 0 (R62, R63). -/
def busRead (P : Params) (size : AccessSize) (off : Offset) (s : State) : Word :=
  if accessOk size off then readWord P s off else 0

/-! ### Writes -/

/-- A write to an operand register stores the value; SAMPLE_HI drops bits 31:16 (R26, R27, R67).  No other
register takes data. -/
def writeOperand (r : Reg) (v : Word) (s : State) : State :=
  match r with
  | .sampleLo => { s with sampleLo := v }
  | .sampleHi => { s with sampleHi := v.setWidth 16 }
  | .sampleTag => { s with sampleTag := v }
  | .metaTrack => { s with metaTrack := v }
  | .metaVehicle => { s with metaVehicle := v }
  | .metaChar => { s with metaChar := v }
  | .metaManual => { s with metaManual := v }
  | .cmd | .status | .errTag | .errRawLo | .errRawHi | .errBytes | .frames | .runsF | .runsD | .runsT
  | .crc | .capacity | .fileSize => s

/-- A word written to CMD: the command it selects, or the reserved command (R36, R81, R82). -/
def command (w : Word) (s : State) : Host.Outcome State Fault Refusal :=
  match decode w with
  | .ok i => exec i s
  | .error _ => reservedCommand s

/-- An accepted write anywhere but CMD: a RW register stores it unless the engine is busy; every other
target ignores it and flags ILLEGAL (R24, R66 to R68, R255). -/
def writeElsewhere (off : Offset) (v : Word) (s : State) : State :=
  if s.ctl = .finishing then flagIllegal s
  else
    match regAt off with
    | some r => if r.access = .readWrite then writeOperand r v s else flagIllegal s
    | none => flagIllegal s

/-- A bus write; a malformed one is ignored and flags ILLEGAL (R62, R63).  In FINISHING a command other than
RESET is turned away by its own meaning (R104, R255). -/
def busWrite (size : AccessSize) (off : Offset) (v : Word) (s : State) :
    Host.Outcome State Fault Refusal :=
  if accessOk size off then
    if off = Reg.cmd.offset then command v s else .next (writeElsewhere off v s)
  else .next (flagIllegal s)

/-! ### One event -/

/-- The data of a read handed to the host (R67; assumption 5). -/
def State.withRdata (s : State) (v : Word) : State := { s with env := { s.env with rdata := v } }

/-- The bus events still to come replaced. -/
def State.withBus (s : State) (bus : List BusEvent) : State := { s with env := { s.env with bus := bus } }

/-- The oldest event taken off the list, and one event less for a pending engine step to wait for. -/
def State.afterEvent (s : State) (rest : List BusEvent) : State :=
  { s with env := { s.env with bus := rest, engineWait := s.env.engineWait - 1 } }

/-- One polling read of STATUS; the WAIT stands for the next event too while BUSY reads 1 (R72, R86). -/
def pollStatus (P : Params) (rest : List BusEvent) (s : State) : State :=
  let v := busRead P .word Reg.status.offset s
  if v.getLsbD 3 then (s.withRdata v).withBus (.wait :: rest) else s.withRdata v

/-- One bus event on the state it has been taken off (R20a, R62, R250). -/
def performEvent (P : Params) (e : BusEvent) (rest : List BusEvent) (s : State) :
    Host.Outcome State Fault Refusal :=
  match e with
  | .write size off v => busWrite size off v s
  | .read size off => .next (s.withRdata (busRead P size off s))
  | .wait => .next (pollStatus P rest s)
  | .hardwareReset => .next (resetBlock s)

/-- The host's side of a step: its oldest event, or nothing if it has none (R20, R71; assumption 4). -/
def hostStep (P : Params) (s : State) : Host.Outcome State Fault Refusal :=
  match s.env.bus with
  | [] => .next s
  | e :: rest => performEvent P e rest (s.afterEvent rest)

/-- It is the engine's turn: a FINISH is pending, and its wait is over or the host has nothing to do
(R20b, R258; assumption 3). -/
def State.engineTurn (s : State) : Bool :=
  s.ctl == .finishing && (s.env.engineWait == 0 || s.env.bus.isEmpty)

/-- The given word as the host's next event, a write to CMD, with the host to move next
(assumptions 2 and 19). -/
def State.withCommandNext (s : State) (w : Word) : State :=
  { s with
    env := { s.env with
      bus := .write .word Reg.cmd.offset w :: s.env.bus
      engineWait := s.env.engineWait + 1 } }

end Sys2Proof.Machine
end

