-- ==== Sys2Proof/Machine/Step.lean ====
section
/-! DEFINITION. One step of the machine: the engine's if it is its turn, else the host's
(spec/10_state.md R20, spec/20_memory.md R71). -/

namespace Sys2Proof.Machine

/-- One step (R20). -/
def step (s : State) : Host.Outcome State Fault Refusal :=
  if s.engineTurn then .next (engineStep params s) else hostStep params s

/-- The state in which the next step is the host's write of the word `w` to CMD: commands come from the
host, and the block fetches nothing (R23, R74). [DESIGN CHOICE: assumption 2] -/
def State.withFetchWord (s : State) (_nbits w : Nat) : State := s.withCommandNext (BitVec.ofNat 32 w)

end Sys2Proof.Machine
end

