-- ==== Sys2Proof/Machine/HostProgram.lean ====
section
/-! DEFINITION. The notation of host programs (spec/30_encoding.md R86) as lists of bus events.  The spec
calls it not normative for the block (spec/92_eei_decisions.md D36). -/

namespace Sys2Proof.Machine

/-- `W <reg>, <v>` (R86). -/
def hostWrite (r : Reg) (v : Word) : List BusEvent := [.write .word r.offset v]

/-- `R <reg>` (R86). -/
def hostRead (r : Reg) : List BusEvent := [.read .word r.offset]

/-- `R OUT[k]` (R86). -/
def hostReadOut (k : Nat) : List BusEvent := [.read .word (BitVec.ofNat 18 (0x1000 + 4 * k))]

/-- `RESET`, `START`, `PUSH`, `FINISH` (R86). -/
def hostCommand (i : Instr) : List BusEvent := hostWrite .cmd (encode i)

/-- `META t, v, c, m` (R86). -/
def hostMeta (t v c m : Word) : List BusEvent :=
  hostWrite .metaTrack t ++ hostWrite .metaVehicle v ++ hostWrite .metaChar c ++ hostWrite .metaManual m

/-- `SAMPLE a, b, i, x, y, t, L` (R85, R86). -/
def hostSample (r : Record) : List BusEvent :=
  hostWrite .sampleLo (packSampleLo r) ++ hostWrite .sampleHi (packSampleHi r) ++
    hostWrite .sampleTag r.line ++ hostCommand .push

/-- `WAIT` (R86). -/
def hostWait : List BusEvent := [.wait]

/-- `REPEAT n` of a body (R86). -/
def hostRepeat (n : Nat) (body : List BusEvent) : List BusEvent := (List.replicate n body).flatten

end Sys2Proof.Machine
end

