-- ==== Sys2Proof/Safety.lean ====
section
/-! DEFINITION. The terms claims are made in: what the next step is, what a run-length encoding is supposed to
be, whole encodes, and the invariants of a safe run. -/

namespace Sys2Proof.Machine

/-! ### What the next step is -/

/-- The command the next step runs, if the next step is the host's write of one (R36, R81). -/
def State.commandIssued (s : State) : Option Instr :=
  if s.engineTurn then none
  else
    match s.env.bus with
    | .write .word off w :: _ => if off = Reg.cmd.offset then (decode w).toOption else none
    | _ => none

/-- The next step is the hardware reset (R250). -/
def State.hardwareResetNext (s : State) : Bool := !s.engineTurn && s.env.bus.head? == some .hardwareReset

/-- The next step puts the block into its reset state (R100, R250). -/
def State.resetNext (s : State) : Bool := s.commandIssued == some .reset || s.hardwareResetNext

/-- An event that resets the block: the RESET word written to CMD, or the reset input. -/
def resets : BusEvent → Bool
  | .write .word off w => off == Reg.cmd.offset && w == encode .reset
  | .hardwareReset => true
  | _ => false

/-- The states in which a command is not illegal (R104). -/
def legalIn : Instr → Ctl → Bool
  | .reset, _ => true
  | .start, ctl => ctl != .finishing
  | .push, ctl => ctl == .accept
  | .finish, ctl => ctl == .accept

/-! ### Run-length encoding, said without the encoder -/

/-- Each entry expanded into `count` copies of its value, in order (R144). -/
def expand (es : List Entry) : List Byte := es.flatMap (fun e => List.replicate e.count e.value)

/-- The values a channel stands for: its entries, the open run included, expanded (R144). -/
def Channel.values (ch : Channel) : List Byte := expand ch.closeRun.sealed

/-- How many values a channel has received (R127). -/
def Channel.total (ch : Channel) : Nat := (ch.sealed.map Entry.count).sum + ch.curCnt

/-- The maximal blocks of equal consecutive values, as value and length (R145). -/
def blocks : List Byte → List (Byte × Nat)
  | [] => []
  | v :: vs =>
    match blocks vs with
    | [] => [(v, 1)]
    | (w, n) :: rest => if v = w then (w, n + 1) :: rest else (v, 1) :: (w, n) :: rest

/-- The entries of a block of `n` values: `floor(n / 255)` of count 255, then the remainder if it is not zero
(R145). -/
def blockEntries (b : Byte × Nat) : List Entry :=
  List.replicate (b.2 / 255) { value := b.1, count := 255 } ++
    (if b.2 % 255 = 0 then [] else [{ value := b.1, count := b.2 % 255 }])

/-- The entries a sequence of values is to be encoded as (R145). -/
def encodedRuns (vs : List Byte) : List Entry := (blocks vs).flatMap blockEntries

/-- Entries read back from section bytes: value byte, count byte; for NIBBLE the value is the high nibble
(R146, R147). -/
def readEntries (mode : OvfMode) : List Byte → List Entry
  | v :: n :: rest =>
    { value := (match mode with | .none => v | .nibble => v >>> 4), count := n.toNat } :: readEntries mode rest
  | _ => []

/-! ### Whole encodes -/

/-- The values of the sample registers at one PUSH. -/
structure Operands where
  lo : Word
  hi : BitVec 16
  tag : Word
  deriving DecidableEq, Repr

/-- The sample registers hold the given operands, as after the host's writes. -/
def State.withOperands (s : State) (o : Operands) : State :=
  { s with sampleLo := o.lo, sampleHi := o.hi, sampleTag := o.tag }

/-- The sample the operands stand for (R83). -/
def Operands.sample (o : Operands) : Sample := sampleOf o.lo o.hi

/-- Every field of the sample is in range (R121). -/
def Operands.valid (o : Operands) : Prop := fieldCheck o.sample = 0

/-- Go on with the next state, or stop as it stopped. -/
def andThen (r : Host.Outcome State Fault Refusal) (f : State → Host.Outcome State Fault Refusal) :
    Host.Outcome State Fault Refusal :=
  match r with
  | .next s => f s
  | .fault e => .fault e
  | .refused e => .refused e

/-- One PUSH per element, each with its own operands. -/
def pushAll : List Operands → State → Host.Outcome State Fault Refusal
  | [], s => .next s
  | o :: rest, s => andThen (exec .push (s.withOperands o)) (pushAll rest)

/-- The engine's step if a FINISH is pending, else nothing (R20b). -/
def engineSettles (s : State) : State := if s.ctl = .finishing then engineStep params s else s

/-- One encode: START, the pushes, FINISH, the engine's step (R12, R252).  After an error the commands that
follow are illegal, so the error stands. -/
def encodeRun (os : List Operands) (s : State) : Host.Outcome State Fault Refusal :=
  andThen (exec .start s) fun s1 =>
    andThen (pushAll os s1) fun s2 => andThen (exec .finish s2) fun s3 => .next (engineSettles s3)

/-- The values a list of samples presents to a channel (R127). -/
def channelInput (c : Chan) (os : List Operands) : List Byte := os.map (fun o => channelValue o.sample c)

/-- The input section of a recording, unpadded, said by `encodedRuns` alone (R145 to R147, R184). -/
def recordingSection (os : List Operands) : List Byte :=
  serializeEntries .none (encodedRuns (channelInput .face os)) ++
    serializeEntries .none (encodedRuns (channelInput .dir os)) ++
    serializeEntries .nibble (encodedRuns (channelInput .trick os))

/-- The ghost file of a recording and its metadata (R195). -/
def ghostFile (P : Params) (m : RaceMeta) (os : List Operands) : List Byte :=
  headerBuild P m ++
    (be16 (encodedRuns (channelInput .face os)).length ++ be16 (encodedRuns (channelInput .dir os)).length ++
      be16 (encodedRuns (channelInput .trick os)).length) ++
    padSection P (recordingSection os) ++ be32 (crc32 (padSection P (recordingSection os)))

/-- The META registers hold values START accepts in this hardware (R110). -/
def State.metaLegal (s : State) : Prop :=
  s.metaTrack.toNat ≤ 63 ∧ s.metaVehicle.toNat ≤ 63 ∧ s.metaChar.toNat ≤ 63 ∧ s.metaManual.toNat ≤ 1

/-! ### Invariants -/

/-- The values a channel can hold (R124 to R126, R149). -/
def valueOk : Chan → Byte → Prop
  | .face, v => v.toNat ≤ 7
  | .dir, v => v.toNat / 16 ≤ 14 ∧ v.toNat % 16 ≤ 14
  | .trick, v => v.toNat ≤ 4

/-- The bounds of one channel: counts in `1..MAX_RUN`, values of the channel, and two adjacent entries share a
value only if the first is full (R141, R143). -/
def Channel.Good (c : Chan) (ch : Channel) : Prop :=
  ch.curCnt ≤ Config.maxRun c ∧
    (∀ e ∈ ch.closeRun.sealed, 1 ≤ e.count ∧ e.count ≤ Config.maxRun c ∧ valueOk c e.value) ∧
    ch.closeRun.sealed.IsChain (fun e f => e.value = f.value → e.count = Config.maxRun c)

/-- The encoder state: every channel within its bounds, each holding exactly the counted samples; while
samples are taken a channel without an open run is empty; in IDLE nothing is counted (R29, R30, R127, R143). -/
def EncoderInv (s : State) : Prop :=
  (∀ c, (s.ch c).Good c ∧ s.frames = sat32 (s.ch c).total ∧
    ((s.ctl = .accept ∨ s.ctl = .finishing) → (s.ch c).curCnt = 0 → (s.ch c).sealed = [])) ∧
  (s.ctl = .idle → s.frames = 0)

/-- What the error registers hold besides the code, for each code (the last column of R220). -/
def errContextOk (s : State) : Prop :=
  match s.err with
  | .none =>
    s.errFields = 0 ∧ s.errTag = 0 ∧ s.errRawLo = 0 ∧ s.errRawHi = 0 ∧ s.errBytes = 0
  | .malformedRecord =>
    s.errFields ≠ 0 ∧ s.errFields = fieldCheck (sampleOf s.errRawLo (s.errRawHi.setWidth 16)) ∧
      s.errRawHi.toNat < 2 ^ 16 ∧ s.errBytes = 0
  | .emptyRecording =>
    s.errFields = 0 ∧ s.errTag = 0 ∧ s.errRawLo = 0 ∧ s.errRawHi = 0 ∧ s.errBytes = 0 ∧ s.frames = 0
  | .inputSectionOverflow =>
    s.errFields = 0 ∧ s.errTag = 0 ∧ s.errRawLo = 0 ∧ s.errRawHi = 0 ∧
      s.errBytes = sat32 (2 * s.totalRuns) ∧ 2 * s.totalRuns > params.cap
  | .invalidMetadata =>
    s.errFields ≠ 0 ∧ s.errFields.toNat < 16 ∧ s.errTag = 0 ∧ s.errRawLo = 0 ∧ s.errRawHi = 0 ∧
      s.errBytes = 0 ∧ s.frames = 0

/-- The error state: an error code exactly in ERROR, with its own context and nothing else (R220, R224). -/
def ErrorInv (s : State) : Prop := (s.ctl = .error ↔ s.err ≠ .none) ∧ errContextOk s

/-- The output: nothing before DONE; in DONE the whole image of the sealed channels and the latched metadata,
and its checksum (R33, R39, R193, R195). -/
def ImageInv (s : State) : Prop :=
  s.img.wf = true ∧
  (s.ctl ≠ .done → s.img = Memory.clear ∧ s.crc = 0) ∧
  (s.ctl = .done →
    s.frames ≠ 0 ∧ (∀ c, (s.ch c).curCnt = 0) ∧ 2 * s.totalRuns ≤ params.cap ∧
      (∀ i, s.img.read i = (imageBytes params s).getD i 0) ∧ s.crc = sectionCrc params s)

/-- A run is safe if no step of it stops. -/
def SafeRun (n : Nat) (s : State) : Prop := ∃ t, Sys2Proof.core.run n s = .next t

end Sys2Proof.Machine
end

