-- ==== Sys2Proof/Certificates/Slice0/Obligations.lean ====
section
/-! DEFINITION. The statements for the provers.  Each says in its docstring what part of the spec it formalises. -/

open Sys2Proof Sys2Proof.Machine

/-- The four words of the command map decode to their commands and encode back. [States R81] -/
def Obligations.TableWordsDecodeToTheirCommands : Prop :=
  decode 0x00000001 = .ok .reset ∧ decode 0x00000002 = .ok .start ∧ decode 0x00000003 = .ok .push ∧
    decode 0x00000004 = .ok .finish ∧
    encode .reset = 0x00000001 ∧ encode .start = 0x00000002 ∧ encode .push = 0x00000003 ∧
    encode .finish = 0x00000004 ∧
    (∀ (w : Word) (i : Instr), decode w = .ok i → w = encode i)

/-- Over all 2^32 words: a word decodes to a command exactly if it is that command's encoding, and every
other word is rejected by name. [Derived from spec/30_encoding.md section 1 (command word)] -/
def Obligations.DecodeAcceptsExactlyTheEncodedWords : Prop :=
  (∀ (w : Word) (i : Instr), decode w = .ok i ↔ w = encode i) ∧
  (∀ w : Word, (∀ i, w ≠ encode i) →
    (zeroField w ≠ 0 ∧ decode w = .error (.zeroFieldSet (zeroField w))) ∨
    (zeroField w = 0 ∧ (opField w = 0 ∨ 5 ≤ (opField w).toNat) ∧ decode w = .error (.reservedOp (opField w))))

/-- The 20 registers stand at the map's offsets with the map's access kinds, and at no other of the 2^18
offsets. [Derived from spec/10_state.md section 6 (register map)] -/
def Obligations.RegisterMapIsOneToOne : Prop :=
  (∀ r : Reg,
    (r.offset, r.access) =
      (match r with
      | .cmd => (0x000, .writeOnly)
      | .status => (0x004, .readOnly)
      | .sampleLo => (0x008, .readWrite)
      | .sampleHi => (0x00C, .readWrite)
      | .sampleTag => (0x010, .readWrite)
      | .metaTrack => (0x014, .readWrite)
      | .metaVehicle => (0x018, .readWrite)
      | .metaChar => (0x01C, .readWrite)
      | .metaManual => (0x020, .readWrite)
      | .errTag => (0x024, .readOnly)
      | .errRawLo => (0x028, .readOnly)
      | .errRawHi => (0x02C, .readOnly)
      | .errBytes => (0x030, .readOnly)
      | .frames => (0x034, .readOnly)
      | .runsF => (0x038, .readOnly)
      | .runsD => (0x03C, .readOnly)
      | .runsT => (0x040, .readOnly)
      | .crc => (0x044, .readOnly)
      | .capacity => (0x048, .readOnly)
      | .fileSize => (0x04C, .readOnly) : Offset × Access)) ∧
  (∀ (off : Offset) (r : Reg), regAt off = some r ↔ off = r.offset) ∧
  (∀ r : Reg, r.offset.toNat % 4 = 0 ∧ r.offset.toNat < 0x50)

/-- The host's packing and PUSH's field extraction agree on every record. [States R85] -/
def Obligations.PackedRecordIsReadBack : Prop :=
  (∀ r : Record,
    (let byte := fun z : Int => (if z < -128 then -128 else if z > 127 then 127 else z) % 256
     ((packSampleLo r).toNat : Int) =
        byte r.a + byte r.b * 2 ^ 8 + byte r.item * 2 ^ 16 + byte r.x * 2 ^ 24 ∧
      ((packSampleHi r).toNat : Int) = byte r.y + byte r.trick * 2 ^ 8) ∧
    (packSampleHi r).toNat < 2 ^ 16 ∧
    hostSample r =
      [.write .word 0x008 (packSampleLo r), .write .word 0x00C (packSampleHi r), .write .word 0x010 r.line,
       .write .word 0x000 3]) ∧
  (∀ r : Record, r.wf = true →
    sampleOf (packSampleLo r) ((packSampleHi r).setWidth 16) =
      { a := r.a, b := r.b, item := r.item, x := r.x, y := r.y, trick := r.trick }) ∧
  hostCommand .reset = [.write .word 0x000 1] ∧ hostCommand .finish = [.write .word 0x000 4]

/-- Saturating raw integers to -128..127 keeps the validator's verdict on every field. [Derived from
spec/30_encoding.md section 2 (PUSH operands)] -/
def Obligations.SaturationKeepsTheVerdict : Prop :=
  ∀ r : Record,
    fieldCheck (sampleOf (packSampleLo r) ((packSampleHi r).setWidth 16)) =
      fieldCheck { a := r.a, b := r.b, item := r.item, x := r.x, y := r.y, trick := r.trick }

/-- When it is the host's turn and its event writes to CMD a word that decodes to i, the step is exec of i.
[Derived from spec/10_state.md section 6 (CMD), spec/20_memory.md section 5] The list of events is the
model's choice: assumption 2. -/
def Obligations.StepRunsTheWrittenCommand : Prop :=
  ∀ (s : State) (w : Word) (rest : List BusEvent) (i : Instr),
    s.engineTurn = false → s.env.bus = .write .word 0x000 w :: rest → decode w = .ok i →
      step s = exec i { s with env := { s.env with bus := rest, engineWait := s.env.engineWait - 1 } }

/-- After withFetchWord the very next step runs the word's command on the state itself. [Derived from
spec/20_memory.md section 5 (a command takes effect at the write to CMD)] How a word reaches the block is
the model's choice: assumptions 2 and 19. -/
def Obligations.FetchedWordRunsAtOnce : Prop :=
  ∀ (s : State) (nbits w : Nat) (i : Instr),
    decode (BitVec.ofNat 32 w) = .ok i → step (s.withFetchWord nbits w) = exec i s

/-- A write of any word other than 1 to 4 to CMD sets ILLEGAL and changes nothing else. [States R103] -/
def Obligations.ReservedWordOnlyFlagsIllegal : Prop :=
  ∀ (s : State) (w : Word) (rest : List BusEvent),
    s.engineTurn = false → s.env.bus = .write .word 0x000 w :: rest →
    w ≠ 0x00000001 → w ≠ 0x00000002 → w ≠ 0x00000003 → w ≠ 0x00000004 →
      step s = .next { s with illegal := true, env := { s.env with bus := rest, engineWait := s.env.engineWait - 1 } }

/-- The engine steps only in FINISHING, and there when its wait is over or the host has nothing to do; an
idle machine stays as it is. [Derived from spec/10_state.md section 1 (agents), spec/70_reset_and_hazards.md
section 3 (timing)] The schedule and the idle step are the model's choice: assumptions 3 and 4. -/
def Obligations.EngineStepsOnlyOnAPendingFinish : Prop :=
  ∀ s : State,
    (s.engineTurn = true → s.ctl = .finishing) ∧
    (s.ctl = .finishing → s.env.engineWait = 0 ∨ s.env.bus = [] → step s = .next (engineStep params s)) ∧
    (s.ctl ≠ .finishing → s.env.bus = [] → step s = .next s)

/-- No run of any length from any state stops: every step answers a next state. [Derived from
spec/60_exceptions.md introduction, spec/30_encoding.md section 1 (reserved encodings),
spec/93_implementation_defined.md part 1] -/
def Obligations.EveryRunIsSafe : Prop :=
  ∀ (n : Nat) (s : State), SafeRun n s

/-- RESET completes in every state and leaves every state element at its reset value. [Derived from
spec/40_control.md section 1 (RESET), spec/10_state.md section 7 (reset values)] -/
def Obligations.ResetCommandRestoresEveryElement : Prop :=
  ∀ s : State,
    exec .reset s =
      .next { ctl := .idle, illegal := false, err := .none, errFields := 0, errTag := 0, errRawLo := 0,
               errRawHi := 0, errBytes := 0, sampleLo := 0, sampleHi := 0, sampleTag := 0, metaTrack := 0,
               metaVehicle := 0, metaChar := 0, metaManual := 0,
               latched := { track := 0, vehicle := 0, character := 0, manual := 0 },
               faceCh := { sealed := [], curVal := 0, curCnt := 0 },
               dirCh := { sealed := [], curVal := 0, curCnt := 0 },
               trickCh := { sealed := [], curVal := 0, curCnt := 0 },
               frames := 0, img := [], crc := 0, env := s.env }

/-- Reset leaves the values of the reset table, and the reset input has the effect of the RESET command.
[States R250] R250 says what the reset input does; that it is one event of the list is the model's form:
assumption 12. -/
def Obligations.HardwareResetActsAsResetCommand : Prop :=
  (State.reset =
    { ctl := .idle, illegal := false, err := .none, errFields := 0, errTag := 0, errRawLo := 0,
               errRawHi := 0, errBytes := 0, sampleLo := 0, sampleHi := 0, sampleTag := 0, metaTrack := 0,
               metaVehicle := 0, metaChar := 0, metaManual := 0,
               latched := { track := 0, vehicle := 0, character := 0, manual := 0 },
               faceCh := { sealed := [], curVal := 0, curCnt := 0 },
               dirCh := { sealed := [], curVal := 0, curCnt := 0 },
               trickCh := { sealed := [], curVal := 0, curCnt := 0 },
               frames := 0, img := [], crc := 0, env := State.reset.env } ∧
    (∀ i, State.reset.img.read i = 0) ∧ readReg params State.reset .status = 0 ∧
    (readReg params State.reset .capacity).toNat = params.cap ∧
    (readReg params State.reset .fileSize).toNat = 0x92 + params.cap) ∧
  ∀ (s : State) (rest : List BusEvent), s.engineTurn = false → s.env.bus = .hardwareReset :: rest →
    step s = exec .reset { s with env := { s.env with bus := rest, engineWait := s.env.engineWait - 1 } } ∧
    ∀ t, step s = .next t → t.ctl = .idle ∧ t.engineTurn = false

/-- START with legal metadata clears the encode and the errors, latches the META registers and enters
ACCEPT. [Derived from spec/40_control.md section 2 (START)] -/
def Obligations.StartAcceptsLegalMetadata : Prop :=
  ∀ s : State, s.ctl ≠ .finishing → s.metaTrack.toNat ≤ 63 → s.metaVehicle.toNat ≤ 63 →
    s.metaChar.toNat ≤ 63 → s.metaManual.toNat ≤ 1 →
    ∃ m : RaceMeta,
      exec .start s =
        .next { s with
          ctl := .accept, faceCh := { sealed := [], curVal := 0, curCnt := 0 },
          dirCh := { sealed := [], curVal := 0, curCnt := 0 },
          trickCh := { sealed := [], curVal := 0, curCnt := 0 }, frames := 0, img := [], crc := 0,
          err := .none, errFields := 0, errTag := 0, errRawLo := 0, errRawHi := 0, errBytes := 0,
          latched := m } ∧
      m.track.toNat = s.metaTrack.toNat ∧ m.vehicle.toNat = s.metaVehicle.toNat ∧
      m.character.toNat = s.metaChar.toNat ∧ m.manual.toNat = s.metaManual.toNat

/-- START with metadata out of range raises INVALID_METADATA with one mask bit for each failing field.
[States R110] -/
def Obligations.StartRefusesMetadataOutOfRange : Prop :=
  params.charSplit = .hi2 ∧
  (∀ P : Params, (P.charSplit = .hi2 → charMax P = 63) ∧ (P.charSplit = .low2 → charMax P = 15)) ∧
  ∀ s : State, s.ctl ≠ .finishing →
    ¬ (s.metaTrack.toNat ≤ 63 ∧ s.metaVehicle.toNat ≤ 63 ∧ s.metaChar.toNat ≤ charMax params ∧
        s.metaManual.toNat ≤ 1) →
    ∃ bad : BitVec 6,
      exec .start s =
        .next { s with
          ctl := .error, err := .invalidMetadata, errFields := bad, errTag := 0, errRawLo := 0,
          errRawHi := 0, errBytes := 0, faceCh := { sealed := [], curVal := 0, curCnt := 0 },
          dirCh := { sealed := [], curVal := 0, curCnt := 0 },
          trickCh := { sealed := [], curVal := 0, curCnt := 0 }, frames := 0, img := [], crc := 0,
          latched := { track := 0, vehicle := 0, character := 0, manual := 0 } } ∧
      (bad.getLsbD 0 = true ↔ s.metaTrack.toNat > 63) ∧ (bad.getLsbD 1 = true ↔ s.metaVehicle.toNat > 63) ∧
      (bad.getLsbD 2 = true ↔ s.metaChar.toNat > charMax params) ∧
      (bad.getLsbD 3 = true ↔ s.metaManual.toNat > 1) ∧
      bad.getLsbD 4 = false ∧ bad.getLsbD 5 = false

/-- PUSH and FINISH outside ACCEPT and START in FINISHING set ILLEGAL and change nothing else; RESET is
never illegal. [Derived from spec/40_control.md section 4 (command legality)] -/
def Obligations.IllegalCommandsOnlyFlagIllegal : Prop :=
  ∀ s : State,
    (s.ctl = .finishing → exec .start s = .next { s with illegal := true }) ∧
    (s.ctl ≠ .accept → exec .push s = .next { s with illegal := true }) ∧
    (s.ctl ≠ .accept → exec .finish s = .next { s with illegal := true }) ∧
    (∃ t, exec .reset s = .next t ∧ t.illegal = false)

/-- What START leaves unchanged, and what every image byte reads after it. [Derived from spec/40_control.md
section 2 (START), spec/20_memory.md section 4] -/
def Obligations.StartFrame : Prop :=
  ∀ s t : State, exec .start s = .next t →
    (t.sampleLo = s.sampleLo ∧ t.sampleHi = s.sampleHi ∧ t.sampleTag = s.sampleTag ∧
      t.metaTrack = s.metaTrack ∧ t.metaVehicle = s.metaVehicle ∧ t.metaChar = s.metaChar ∧
      t.metaManual = s.metaManual ∧ t.env = s.env) ∧
    (s.ctl ≠ .finishing → t.illegal = s.illegal ∧ ∀ a, t.img.read a = 0) ∧
    (s.ctl = .finishing →
      t.ctl = s.ctl ∧ t.illegal = true ∧ t.err = s.err ∧ t.errFields = s.errFields ∧ t.errTag = s.errTag ∧
      t.errRawLo = s.errRawLo ∧ t.errRawHi = s.errRawHi ∧ t.errBytes = s.errBytes ∧
      t.latched = s.latched ∧ t.faceCh = s.faceCh ∧ t.dirCh = s.dirCh ∧ t.trickCh = s.trickCh ∧
      t.frames = s.frames ∧ t.crc = s.crc ∧ ∀ a, t.img.read a = s.img.read a)

/-- PUSH of a sample in range feeds the three channels with its values and counts one frame. [Derived from
spec/41_sample_input.md sections 1 and 3, spec/42_rle.md section 1] -/
def Obligations.PushFeedsTheThreeChannels : Prop :=
  ∀ s : State, s.ctl = .accept →
    0 ≤ s.sample.a → s.sample.a ≤ 1 → 0 ≤ s.sample.b → s.sample.b ≤ 1 →
    0 ≤ s.sample.item → s.sample.item ≤ 1 → -7 ≤ s.sample.x → s.sample.x ≤ 7 → -7 ≤ s.sample.y →
    s.sample.y ≤ 7 → 0 ≤ s.sample.trick → s.sample.trick ≤ 4 →
    ∃ vF vD vT : Byte,
      exec .push s =
        .next { s with
          faceCh := s.faceCh.rleStep 255 vF, dirCh := s.dirCh.rleStep 255 vD,
          trickCh := s.trickCh.rleStep 255 vT,
          frames := BitVec.ofNat 32 (min (s.frames.toNat + 1) 0xFFFFFFFF) } ∧
      (vF.toNat : Int) = s.sample.a + 2 * s.sample.b + 4 * s.sample.item ∧
      (vD.toNat : Int) = 16 * (s.sample.y + 7) + (s.sample.x + 7) ∧
      (vT.toNat : Int) = s.sample.trick

/-- The face and direction values of a sample in range, their ranges, and the neutral stick. [States R124,
R125] -/
def Obligations.ChannelValuesOfASample : Prop :=
  ∀ p : Sample, fieldCheck p = 0 →
    ((faceValue p).toNat : Int) = p.a + 2 * p.b + 4 * p.item ∧
    (faceValue p).extractLsb' 3 5 = 0 ∧ (faceValue p).toNat ≤ 0x07 ∧
    ((faceValue p).getLsbD 0 = true ↔ p.a = 1) ∧ ((faceValue p).getLsbD 1 = true ↔ p.b = 1) ∧
    ((faceValue p).getLsbD 2 = true ↔ p.item = 1) ∧
    (((dirValue p).extractLsb' 4 4).toNat : Int) = p.y + 7 ∧
    (((dirValue p).extractLsb' 0 4).toNat : Int) = p.x + 7 ∧
    (dirValue p).extractLsb' 4 4 ≠ 0xF ∧ (dirValue p).extractLsb' 0 4 ≠ 0xF ∧
    (p.x = 0 → p.y = 0 → dirValue p = 0x77)

/-- FieldCheck sets bit k exactly if field k of the record is out of range. [States R121] -/
def Obligations.FieldCheckMarksEveryFailingField : Prop :=
  ∀ p : Sample,
    ((fieldCheck p).getLsbD 0 = true ↔ ¬ (0 ≤ p.a ∧ p.a ≤ 1)) ∧
    ((fieldCheck p).getLsbD 1 = true ↔ ¬ (0 ≤ p.b ∧ p.b ≤ 1)) ∧
    ((fieldCheck p).getLsbD 2 = true ↔ ¬ (0 ≤ p.item ∧ p.item ≤ 1)) ∧
    ((fieldCheck p).getLsbD 3 = true ↔ ¬ (-7 ≤ p.x ∧ p.x ≤ 7)) ∧
    ((fieldCheck p).getLsbD 4 = true ↔ ¬ (-7 ≤ p.y ∧ p.y ≤ 7)) ∧
    ((fieldCheck p).getLsbD 5 = true ↔ ¬ (0 ≤ p.trick ∧ p.trick ≤ 4))

/-- PUSH of a sample out of range enters ERROR, latches the context and changes nothing else. [States R122]
-/
def Obligations.PushRejectsAMalformedRecord : Prop :=
  ∀ s : State, s.ctl = .accept →
    ¬ (0 ≤ s.sample.a ∧ s.sample.a ≤ 1 ∧ 0 ≤ s.sample.b ∧ s.sample.b ≤ 1 ∧ 0 ≤ s.sample.item ∧
        s.sample.item ≤ 1 ∧ -7 ≤ s.sample.x ∧ s.sample.x ≤ 7 ∧ -7 ≤ s.sample.y ∧ s.sample.y ≤ 7 ∧
        0 ≤ s.sample.trick ∧ s.sample.trick ≤ 4) →
    exec .push s =
      .next { s with
        ctl := .error, err := .malformedRecord, errFields := fieldCheck s.sample, errTag := s.sampleTag,
        errRawLo := s.sampleLo, errRawHi := readReg params s .sampleHi &&& 0xFFFF, errBytes := 0 } ∧
    fieldCheck s.sample ≠ 0

/-- The primary reason of a malformed record is the class of the lowest set bit, with its text. [States
R123] -/
def Obligations.PrimaryReasonIsTheLowestSetBit : Prop :=
  (∀ fields : BitVec 6, ∀ k, k < 6 → fields.getLsbD k = true → (∀ j, j < k → fields.getLsbD j = false) →
    primaryReason fields = some (if k ≤ 2 then Reason.button else if k ≤ 4 then .stick else .trick)) ∧
  Reason.button.text = "button out of range" ∧ Reason.stick.text = "stick out of range" ∧
  Reason.trick.text = "trick out of range" ∧ (primaryReason 1).map Reason.text = some "button out of range"

/-- What PUSH leaves unchanged, every image byte included. [Derived from spec/41_sample_input.md section 1,
spec/60_exceptions.md section 2] -/
def Obligations.PushFrame : Prop :=
  ∀ s t : State, exec .push s = .next t →
    (t.sampleLo = s.sampleLo ∧ t.sampleHi = s.sampleHi ∧ t.sampleTag = s.sampleTag ∧
      t.metaTrack = s.metaTrack ∧ t.metaVehicle = s.metaVehicle ∧ t.metaChar = s.metaChar ∧
      t.metaManual = s.metaManual ∧ t.latched = s.latched ∧ t.crc = s.crc ∧ t.env = s.env ∧
      ∀ a, t.img.read a = s.img.read a) ∧
    (s.ctl = .accept → t.illegal = s.illegal) ∧
    (s.ctl ≠ .accept → t.ctl = s.ctl) ∧
    (s.ctl ≠ .accept ∨ t.ctl ≠ .error →
      t.ctl = s.ctl ∧ t.err = s.err ∧ t.errFields = s.errFields ∧ t.errTag = s.errTag ∧
      t.errRawLo = s.errRawLo ∧ t.errRawHi = s.errRawHi ∧ t.errBytes = s.errBytes) ∧
    (s.ctl ≠ .accept ∨ t.ctl = .error →
      t.faceCh = s.faceCh ∧ t.dirCh = s.dirCh ∧ t.trickCh = s.trickCh ∧ t.frames = s.frames)

/-- RleStep seeds, extends, or seals and starts a new run, on its own channel only. [States R141, R150] -/
def Obligations.RleStepSeedsExtendsOrSeals : Prop :=
  (∀ (M : Nat) (v : Byte) (ch : Channel), 1 ≤ M →
    (ch.curCnt = 0 → ch.rleStep M v = { sealed := ch.sealed, curVal := v, curCnt := 1 }) ∧
    (ch.curCnt ≠ 0 → v = ch.curVal → ch.curCnt < M →
      ch.rleStep M v = { sealed := ch.sealed, curVal := ch.curVal, curCnt := ch.curCnt + 1 }) ∧
    (ch.curCnt ≠ 0 → (v ≠ ch.curVal ∨ M ≤ ch.curCnt) →
      ch.rleStep M v =
        { sealed := ch.sealed ++ [{ value := ch.curVal, count := ch.curCnt }], curVal := v, curCnt := 1 }) ∧
    (ch.curCnt ≤ M → (ch.rleStep M v).curCnt ≤ M)) ∧
  (∀ (s : State) (v : Byte),
    rleStep .face v s = { s with faceCh := s.faceCh.rleStep 255 v } ∧
    rleStep .dir v s = { s with dirCh := s.dirCh.rleStep 255 v } ∧
    rleStep .trick v s = { s with trickCh := s.trickCh.rleStep 255 v }) ∧
  (∀ (s : State) (c : Chan) (v : Byte), (rleStep c v s).ch c = (s.ch c).rleStep 255 v) ∧
  (∀ (s : State) (c d : Chan) (v w : Byte), c ≠ d →
    (rleStep c v s).ch d = s.ch d ∧ rleStep c v (rleStep d w s) = rleStep d w (rleStep c v s))

/-- Seal appends the open run as one entry and leaves the run count unchanged. [Derived from spec/42_rle.md
section 1 (Seal), spec/10_state.md section 4 (run counts)] -/
def Obligations.SealAppendsTheOpenRun : Prop :=
  ∀ ch : Channel,
    (ch.curCnt > 0 →
      ch.closeRun =
        { sealed := ch.sealed ++ [{ value := ch.curVal, count := ch.curCnt }], curVal := ch.curVal,
          curCnt := 0 }) ∧
    (ch.curCnt = 0 → ch.closeRun = ch) ∧ ch.closeRun.nRuns = ch.nRuns ∧
    ch.closeRun.sealed.length = ch.nRuns

/-- Expanding each channel's entries gives back exactly the values pushed to it, in order, after any number
of pushes. [States R144] -/
def Obligations.PushesRoundTrip : Prop :=
  (∀ (s : State) (os : List Operands), s.ctl = .accept → (∀ o ∈ os, o.valid) →
    ∃ t, pushAll os s = .next t ∧ t.ctl = .accept ∧
      t.frames.toNat = min (s.frames.toNat + os.length) 0xFFFFFFFF ∧
      ∀ c, expand (t.ch c).closeRun.sealed = expand (s.ch c).closeRun.sealed ++ channelInput c os) ∧
  (∀ (s : State) (os : List Operands), s.ctl = .accept → (∀ o ∈ os, o.valid) →
    (∀ c, s.ch c = Channel.empty) →
    ∃ t, pushAll os s = .next t ∧ ∀ c, expand (t.ch c).closeRun.sealed = channelInput c os)

/-- The encoder's entries are exactly the maximal blocks of equal values, each cut into 255s and a
remainder. [States R145] -/
def Obligations.ChannelsHoldChunkedMaximalBlocks : Prop :=
  ∀ vs : List Byte,
    (vs.foldl (fun ch v => ch.rleStep 255 v) Channel.empty).closeRun.sealed = encodedRuns vs ∧
    (∀ b ∈ blocks vs, 1 ≤ b.2 ∧ (blockEntries b).length = (b.2 + 254) / 255) ∧
    (blocks vs).flatMap (fun b => List.replicate b.2 b.1) = vs ∧
    (blocks vs).IsChain (fun b d => b.1 ≠ d.1) ∧
    (vs.length + 254) / 255 ≤ (encodedRuns vs).length

/-- The two bytes of an entry, value byte first, and the overflow nibble. [States R146, R148] -/
def Obligations.EntriesSerializeToTwoBytes : Prop :=
  (Config.ovfMode .face = .none ∧ Config.ovfMode .dir = .none ∧ Config.ovfMode .trick = .nibble) ∧
  (∀ e : Entry, 1 ≤ e.count → e.count ≤ 255 →
    ∃ n : Byte, n.toNat = e.count ∧ entryBytes .none e = [e.value, n]) ∧
  (∀ e : Entry, e.value.toNat ≤ 15 →
    ∃ v n : Byte, entryBytes .nibble e = [v, n] ∧ v.toNat = 16 * e.value.toNat + ovfNibble e.count ∧
      n.toNat = min e.count 255) ∧
  (∀ n, n > 255 → ovfNibble n = ((n - 255) / 256) % 16) ∧ (∀ n, n ≤ 255 → ovfNibble n = 0)

/-- The section is 2(nF+nD+nT) bytes and its entries read back, delimited by the counts alone. [Derived from
spec/44_section_checksum.md section 1 (serialization), spec/42_rle.md section 2] -/
def Obligations.SectionIsDelimitedByTheCounts : Prop :=
  ∀ s : State, (∀ c, (s.ch c).Good c) →
    (sectionBytes s).length = 2 * (s.faceCh.sealed.length + s.dirCh.sealed.length + s.trickCh.sealed.length) ∧
    readEntries .none ((sectionBytes s).take (2 * s.faceCh.sealed.length)) = s.faceCh.sealed ∧
    readEntries .none
      (((sectionBytes s).drop (2 * s.faceCh.sealed.length)).take (2 * s.dirCh.sealed.length)) =
        s.dirCh.sealed ∧
    readEntries .nibble
      ((sectionBytes s).drop (2 * s.faceCh.sealed.length + 2 * s.dirCh.sealed.length)) = s.trickCh.sealed

/-- FINISH in ACCEPT moves to FINISHING and changes nothing else of the block. [Derived from
spec/44_section_checksum.md section 1 (FINISH, host half)] -/
def Obligations.FinishHandsOverToTheEngine : Prop :=
  ∀ s : State, s.ctl = .accept →
    ∃ t, exec .finish s = .next t ∧
      (∃ d n, t = { s with ctl := .finishing, env := { s.env with engineWait := d, finishes := n } }) ∧
      (t.status params).extractLsb' 0 3 = 2 ∧ (t.status params).getLsbD 3 = true ∧
      ∀ a, t.img.read a = s.img.read a

/-- The engine step on no accepted sample raises EMPTY_RECORDING and changes nothing else. [States R182] -/
def Obligations.EngineRejectsAnEmptyRecording : Prop :=
  (∀ s : State, s.engineTurn = true → s.frames = 0 →
    step s =
      .next { s with
        ctl := .error, err := .emptyRecording, errFields := 0, errTag := 0, errRawLo := 0, errRawHi := 0,
        errBytes := 0 } ∧
    ∀ t, step s = .next t →
      ((∀ a, s.img.read a = 0) → ∀ a, t.img.read a = 0) ∧
      ((∀ c, s.ch c = Channel.empty) → ∀ c, t.ch c = Channel.empty)) ∧
  (∀ (s : State) (p : Sample), (acceptSample p s).frames ≠ 0)

/-- The engine step on more than CAP section bytes raises INPUT_SECTION_OVERFLOW with the length and writes
no image byte. [Derived from spec/44_section_checksum.md section 1 (overflow, sealing)] -/
def Obligations.EngineRejectsAnOverflowingSection : Prop :=
  ∀ s : State, s.engineTurn = true → s.frames ≠ 0 → 2 * s.totalRuns > params.cap →
    ∃ t, step s = .next t ∧
      t = { s with
        faceCh := s.faceCh.closeRun, dirCh := s.dirCh.closeRun, trickCh := s.trickCh.closeRun,
        ctl := .error, err := .inputSectionOverflow, errFields := 0, errTag := 0, errRawLo := 0,
        errRawHi := 0, errBytes := BitVec.ofNat 32 (min (2 * s.totalRuns) 0xFFFFFFFF) } ∧
      (∀ c, (t.ch c).nRuns = (s.ch c).nRuns) ∧ (∀ a, t.img.read a = s.img.read a) ∧ t.crc = s.crc

/-- The engine step on a fitting recording enters DONE and writes every region of the image. [States R195,
R187, R186, R191] -/
def Obligations.EngineWritesTheWholeImage : Prop :=
  ∀ s : State, s.engineTurn = true → s.frames ≠ 0 → 2 * s.totalRuns ≤ params.cap →
    ∃ t, step s = .next t ∧
      t = { sealChannels s with ctl := .done, img := t.img, crc := t.crc } ∧
      (∀ i, i < 0x88 → t.img.read i = (headerBuild params s.latched).getD i 0) ∧
      (t.img.read 0x88).toNat * 256 + (t.img.read 0x89).toNat = s.faceCh.nRuns ∧
      (t.img.read 0x8A).toNat * 256 + (t.img.read 0x8B).toNat = s.dirCh.nRuns ∧
      (t.img.read 0x8C).toNat * 256 + (t.img.read 0x8D).toNat = s.trickCh.nRuns ∧
      (sectionBytes (sealChannels s)).length = 2 * s.totalRuns ∧
      (∀ i, i < 2 * s.totalRuns → t.img.read (0x8E + i) = (sectionBytes (sealChannels s)).getD i 0) ∧
      (∀ i, 2 * s.totalRuns ≤ i → i < params.cap → t.img.read (0x8E + i) = 0) ∧
      t.crc =
        crc32 (sectionBytes (sealChannels s) ++ List.replicate (params.cap - 2 * s.totalRuns) 0) ∧
      t.crc.toNat =
        (t.img.read (0x8E + params.cap)).toNat * 2 ^ 24 + (t.img.read (0x8E + params.cap + 1)).toNat * 2 ^ 16 +
          (t.img.read (0x8E + params.cap + 2)).toNat * 2 ^ 8 + (t.img.read (0x8E + params.cap + 3)).toNat ∧
      (∀ i, 0x92 + params.cap ≤ i → t.img.read i = 0)

/-- Every byte of the 0x88-byte header, for every metadata and every parameter set. [States R160, R161,
R162, R163, R164, R165, R166] -/
def Obligations.HeaderBytesOfTheMetadata : Prop :=
  (params.charSplit = .hi2 ∧ params.driftBit = 2) ∧
  ∀ (P : Params) (m : RaceMeta),
    (headerBuild P m).length = 0x88 ∧
    (∀ k : Fin 4, (headerBuild P m).getD k.val 0 = P.magic[k]) ∧
    ((headerBuild P m).getD 0x07 0).toNat = 4 * m.track.toNat ∧
    (P.charSplit = .hi2 →
      ((headerBuild P m).getD 0x08 0).toNat = 4 * m.vehicle.toNat + m.character.toNat / 16) ∧
    (P.charSplit = .low2 →
      ((headerBuild P m).getD 0x08 0).toNat = 4 * m.vehicle.toNat + m.character.toNat % 4) ∧
    ((headerBuild P m).getD 0x09 0).toNat = 16 * (m.character.toNat % 16) ∧
    ((headerBuild P m).getD 0x0D 0).toNat = (1 - m.manual.toNat) * 2 ^ P.driftBit.val ∧
    (∀ i, 0x03 < i → i < 0x07 ∨ 0x09 < i ∧ i < 0x0D ∨ 0x0D < i → (headerBuild P m).getD i 0 = 0)

/-- The three CRC-32 check values. [States R189] -/
def Obligations.CrcCheckValues : Prop :=
  crc32 [0x31, 0x32, 0x33, 0x34, 0x35, 0x36, 0x37, 0x38, 0x39] = 0xCBF43926 ∧ crc32 [] = 0x00000000 ∧
    crc32 [0x00] = 0xD202EF8D

/-- START, any fitting list of samples, FINISH and the engine step give exactly the ghost file of the
recording. [Derived from spec/44_section_checksum.md sections 1 to 3, spec/42_rle.md section 2,
spec/43_header.md section 1] -/
def Obligations.EncodeYieldsTheGhostFile : Prop :=
  ∀ (s : State) (os : List Operands), s.ctl ≠ .finishing → s.metaLegal → os ≠ [] → (∀ o ∈ os, o.valid) →
    (recordingSection os).length ≤ params.cap →
    ∃ t, encodeRun os s = .next t ∧ t.ctl = .done ∧
      (∀ i, t.img.read i = (ghostFile params s.metaOperands os).getD i 0) ∧
      (ghostFile params s.metaOperands os).length = 0x92 + params.cap ∧
      t.crc = crc32 (padSection params (recordingSection os)) ∧
      t.frames.toNat = min os.length 0xFFFFFFFF

/-- An encode of valid samples ends in INPUT_SECTION_OVERFLOW, with its length and no image, exactly if its
section exceeds CAP. [Derived from spec/44_section_checksum.md section 1 (overflow), spec/60_exceptions.md
sections 1 and 2] -/
def Obligations.EncodeOverflowsExactlyBeyondCapacity : Prop :=
  (∀ (s : State) (os : List Operands), s.ctl ≠ .finishing → s.metaLegal → (∀ o ∈ os, o.valid) →
    (recordingSection os).length > params.cap →
    ∃ t, encodeRun os s = .next t ∧ t.ctl = .error ∧ t.err = .inputSectionOverflow ∧
      t.errBytes.toNat = min (recordingSection os).length 0xFFFFFFFF ∧ (∀ i, t.img.read i = 0) ∧ t.crc = 0) ∧
  (∀ (s : State) (os : List Operands), s.ctl ≠ .finishing → s.metaLegal → os ≠ [] → (∀ o ∈ os, o.valid) →
    (recordingSection os).length ≤ params.cap →
    ∃ t, encodeRun os s = .next t ∧ t.ctl = .done ∧ t.err = .none) ∧
  (∀ (s t : State) (os : List Operands), s.ctl ≠ .finishing → s.metaLegal → (∀ o ∈ os, o.valid) →
    encodeRun os s = .next t → (t.err = .inputSectionOverflow ↔ (recordingSection os).length > params.cap)) ∧
  (∀ s : State, s.ctl ≠ .finishing → s.metaLegal →
    ∃ t, encodeRun [] s = .next t ∧ t.ctl = .error ∧ t.err = .emptyRecording ∧ (∀ i, t.img.read i = 0) ∧
      t.crc = 0)

/-- Two encodes of the same samples and metadata give the same image, CRC and verdict, whatever tags,
earlier state, ILLEGAL and schedule they have. [Derived from spec/44_section_checksum.md section 3
(determinism), spec/70_reset_and_hazards.md section 1] -/
def Obligations.EncodeIsDeterministic : Prop :=
  ∀ (s1 s2 t1 t2 : State) (os1 os2 : List Operands), s1.ctl ≠ .finishing → s2.ctl ≠ .finishing →
    s1.metaTrack = s2.metaTrack → s1.metaVehicle = s2.metaVehicle → s1.metaChar = s2.metaChar →
    s1.metaManual = s2.metaManual →
    os1.map (fun o => (o.lo, o.hi)) = os2.map (fun o => (o.lo, o.hi)) →
    encodeRun os1 s1 = .next t1 → encodeRun os2 s2 = .next t2 →
    t1.ctl = t2.ctl ∧ t1.err = t2.err ∧ (∀ i, t1.img.read i = t2.img.read i) ∧ t1.crc = t2.crc ∧
      t1.frames = t2.frames ∧ ∀ c, t1.ch c = t2.ch c

/-- Two successful encodes with the same metadata have the same header, with the same samples the same
checksum; so do engine steps. [States R168] -/
def Obligations.HeaderAndChecksumAreIndependent : Prop :=
  (∀ (s1 s2 t1 t2 : State) (os1 os2 : List Operands), s1.ctl ≠ .finishing → s2.ctl ≠ .finishing →
    encodeRun os1 s1 = .next t1 → encodeRun os2 s2 = .next t2 → t1.ctl = .done → t2.ctl = .done →
    (s1.metaTrack = s2.metaTrack → s1.metaVehicle = s2.metaVehicle → s1.metaChar = s2.metaChar →
      s1.metaManual = s2.metaManual → ∀ i, i < 0x88 → t1.img.read i = t2.img.read i) ∧
    (os1.map (fun o => (o.lo, o.hi)) = os2.map (fun o => (o.lo, o.hi)) → t1.crc = t2.crc ∧
      ∀ i, i < 4 → t1.img.read (0x8E + params.cap + i) = t2.img.read (0x8E + params.cap + i))) ∧
  (∀ s1 s2 t1 t2 : State, s1.engineTurn = true → s2.engineTurn = true →
    step s1 = .next t1 → step s2 = .next t2 → t1.ctl = .done → t2.ctl = .done →
    (s1.latched = s2.latched → ∀ i, i < 0x88 → t1.img.read i = t2.img.read i) ∧
    ((∀ c, s1.ch c = s2.ch c) → t1.crc = t2.crc ∧
      ∀ i, i < 4 → t1.img.read (0x8E + params.cap + i) = t2.img.read (0x8E + params.cap + i)))

/-- Every field of STATUS, its codes, and the reserved bits. [Derived from spec/10_state.md section 6
(STATUS), spec/60_exceptions.md section 1] -/
def Obligations.StatusShowsItsFields : Prop :=
  ∀ (P : Params) (s : State),
    ((s.status P).extractLsb' 0 3).toNat =
      (match s.ctl with | .idle => 0 | .accept => 1 | .finishing => 2 | .done => 3 | .error => 4) ∧
    ((s.status P).getLsbD 3 = true ↔ s.ctl = .finishing) ∧
    ((s.status P).getLsbD 4 = true ↔ 2 * (s.faceCh.nRuns + s.dirCh.nRuns + s.trickCh.nRuns) > P.cap) ∧
    (s.status P).getLsbD 5 = s.illegal ∧ (s.status P).extractLsb' 6 2 = 0 ∧
    ((s.status P).extractLsb' 8 3).toNat =
      (match s.err with
        | .none => 0 | .malformedRecord => 1 | .emptyRecording => 2 | .inputSectionOverflow => 3
        | .invalidMetadata => 4) ∧
    (s.status P).extractLsb' 11 5 = 0 ∧ (s.status P).extractLsb' 16 6 = s.errFields ∧
    (s.status P).extractLsb' 22 10 = 0

/-- An aligned 32-bit read of each register of the map returns its value and changes nothing of the block.
[Derived from spec/10_state.md section 6, spec/20_memory.md section 4 (register reads)] -/
def Obligations.RegisterReadReturnsTheRegister : Prop :=
  ∀ (s : State) (r : Reg) (rest : List BusEvent), s.engineTurn = false → s.env.bus = .read .word r.offset :: rest →
    ∃ v : Word,
      step s =
        .next { s with
          env := { s.env with bus := rest, rdata := v, engineWait := s.env.engineWait - 1 } } ∧
      match r with
      | .cmd => v = 0
      | .status => v = s.status params
      | .sampleLo => v = s.sampleLo
      | .sampleHi => v.extractLsb' 0 16 = s.sampleHi ∧ v.extractLsb' 16 16 = 0
      | .sampleTag => v = s.sampleTag
      | .metaTrack => v = s.metaTrack
      | .metaVehicle => v = s.metaVehicle
      | .metaChar => v = s.metaChar
      | .metaManual => v = s.metaManual
      | .errTag => v = s.errTag
      | .errRawLo => v = s.errRawLo
      | .errRawHi => v = s.errRawHi
      | .errBytes => v = s.errBytes
      | .frames => v = s.frames
      | .runsF => v.toNat = min s.faceCh.nRuns 0xFFFFFFFF
      | .runsD => v.toNat = min s.dirCh.nRuns 0xFFFFFFFF
      | .runsT => v.toNat = min s.trickCh.nRuns 0xFFFFFFFF
      | .crc => v = s.crc
      | .capacity => v.toNat = params.cap
      | .fileSize => v.toNat = 0x92 + params.cap

/-- Every bus read changes nothing of the block; malformed, reserved, unmapped and not-DONE window reads
return 0. [Derived from spec/20_memory.md sections 2 and 4, spec/70_reset_and_hazards.md section 3] -/
def Obligations.ReadsOutsideRegistersAndReadyImageGiveZero : Prop :=
  ∀ (s : State) (size : AccessSize) (off : Offset) (rest : List BusEvent), s.engineTurn = false →
    s.env.bus = .read size off :: rest →
    ∃ v : Word,
      step s =
        .next { s with
          env := { s.env with bus := rest, rdata := v, engineWait := s.env.engineWait - 1 } } ∧
      (size ≠ .word ∨ off.toNat % 4 ≠ 0 → v = 0) ∧
      ((∀ r : Reg, off ≠ r.offset) →
        off.toNat < 0x1000 ∨ 0x1000 + 4 * outWords params ≤ off.toNat → v = 0) ∧
      (0x1000 ≤ off.toNat → s.ctl ≠ .done → v = 0)

/-- In DONE the k-th window word is four image bytes, first byte most significant, padded with zeros past
FILE_SIZE. [States R65] -/
def Obligations.WindowPacksImageBytesBigEndian : Prop :=
  ∀ (s : State) (k : Nat) (rest : List BusEvent), s.engineTurn = false → s.ctl = .done → k < outWords params →
    s.env.bus = .read .word (BitVec.ofNat 18 (0x1000 + 4 * k)) :: rest →
    ∃ v : Word,
      step s =
        .next { s with
          env := { s.env with bus := rest, rdata := v, engineWait := s.env.engineWait - 1 } } ∧
      (let img' := fun i => if i < 0x92 + params.cap then (s.img.read i).toNat else 0
       v.toNat = img' (4 * k) * 2 ^ 24 + img' (4 * k + 1) * 2 ^ 16 + img' (4 * k + 2) * 2 ^ 8 +
         img' (4 * k + 3))

/-- CAP is legal and the window holds every file byte, ends by 0x21090 and fits the aperture. [Derived from
spec/20_memory.md section 1, spec/00_scope.md section 3] -/
def Obligations.WindowHoldsTheWholeFile : Prop :=
  6 ≤ params.cap ∧ params.cap ≤ 131070 ∧ fileSize params = 0x92 + params.cap ∧
    fileSize params ≤ 4 * outWords params ∧ 4 * outWords params < fileSize params + 4 ∧
    0x1000 + 4 * outWords params ≤ 0x21090 ∧ 0x1000 + 4 * outWords params < 2 ^ 18

/-- A write to an operand register stores the value; every other register and all else stay. [Derived from
spec/10_state.md section 3, spec/20_memory.md section 4] -/
def Obligations.OperandWriteIsReadBack : Prop :=
  ∀ (s : State) (r : Reg) (v : Word) (rest : List BusEvent), s.engineTurn = false → s.ctl ≠ .finishing →
    r.access = .readWrite → s.env.bus = .write .word r.offset v :: rest →
    ∃ t, step s = .next t ∧
      readReg params t r = (if r = .sampleHi then v &&& 0x0000FFFF else v) ∧
      (∀ q, q ≠ r → readReg params t q = readReg params s q) ∧
      t.ctl = s.ctl ∧ t.illegal = s.illegal ∧ (∀ c, t.ch c = s.ch c) ∧ t.latched = s.latched ∧
      (∀ a, t.img.read a = s.img.read a) ∧
      t.env = { s.env with bus := rest, engineWait := s.env.engineWait - 1 }

/-- A malformed write, and a write to a read-only, reserved, window or unmapped offset, only sets ILLEGAL.
[Derived from spec/20_memory.md sections 2 and 4, spec/10_state.md section 2 (ILLEGAL)] -/
def Obligations.BadWritesOnlyFlagIllegal : Prop :=
  ∀ (s : State) (size : AccessSize) (off : Offset) (v : Word) (rest : List BusEvent), s.engineTurn = false →
    s.env.bus = .write size off v :: rest →
    ((size ≠ .word ∨ off.toNat % 4 ≠ 0) ∨ (∃ r : Reg, r.access = .readOnly ∧ off = r.offset) ∨
      (∀ r : Reg, off ≠ r.offset)) →
      step s = .next { s with illegal := true, env := { s.env with bus := rest, engineWait := s.env.engineWait - 1 } }

/-- In FINISHING every write but CMD = RESET only sets ILLEGAL, operand registers and commands included.
[Derived from spec/70_reset_and_hazards.md section 3 (busy hazard)] -/
def Obligations.BusyTurnsEveryWriteAwayButReset : Prop :=
  ∀ (s : State) (size : AccessSize) (off : Offset) (v : Word) (rest : List BusEvent), s.engineTurn = false →
    s.ctl = .finishing → s.env.bus = .write size off v :: rest →
    (¬ (size = .word ∧ off = 0x000 ∧ v = 0x00000001) →
      step s = .next { s with illegal := true, env := { s.env with bus := rest, engineWait := s.env.engineWait - 1 } }) ∧
    (size = .word ∧ off = 0x000 ∧ v = 0x00000001 →
      ∃ t, step s = .next t ∧ t.ctl = .idle ∧ t.engineTurn = false)

/-- WAIT reads STATUS once a step and stays the host's next event while BUSY reads 1. [Derived from
spec/20_memory.md section 5, spec/30_encoding.md section 3] WAIT as one event is the model's choice:
assumption 11. -/
def Obligations.WaitPollsUntilNotBusy : Prop :=
  ∀ (s : State) (rest : List BusEvent), s.engineTurn = false → s.env.bus = .wait :: rest →
    step s =
      .next { s with
        env := { s.env with
          bus := if s.ctl = .finishing then .wait :: rest else rest
          rdata := s.status params
          engineWait := s.env.engineWait - 1 } }

/-- Once set, ILLEGAL stays set over every step but a RESET command or a hardware reset. [Derived from
spec/10_state.md section 2 (ILLEGAL), spec/60_exceptions.md section 1 (ILLEGAL)] -/
def Obligations.OnlyResetClearsIllegal : Prop :=
  ∀ s t : State, step s = .next t → s.illegal = true → (t.illegal = true ↔ s.resetNext = false)

/-- Only START and RESET (or the reset input) leave ERROR, and until then every error register keeps its
value. [Derived from spec/60_exceptions.md section 2 (leaving ERROR), spec/10_state.md section 6 (error
registers)] -/
def Obligations.OnlyStartAndResetLeaveError : Prop :=
  ∀ s t : State, step s = .next t → s.ctl = .error → s.commandIssued ≠ some .start → s.resetNext = false →
    t.ctl = .error ∧ t.err = s.err ∧ t.errFields = s.errFields ∧ t.errTag = s.errTag ∧
      t.errRawLo = s.errRawLo ∧ t.errRawHi = s.errRawHi ∧ t.errBytes = s.errBytes ∧
      (∀ c, t.ch c = s.ch c) ∧ t.frames = s.frames ∧ t.latched = s.latched

/-- The latched metadata changes only by START, RESET or the reset input, whatever is written to the META
registers. [Derived from spec/10_state.md section 3 (latched metadata), spec/40_control.md section 2
(latching), spec/70_reset_and_hazards.md section 3 (metadata hazard)] -/
def Obligations.MetadataIsFixedForTheWholeEncode : Prop :=
  ∀ s t : State, step s = .next t → s.resetNext = false →
    (s.commandIssued ≠ some .start ∨ s.ctl = .finishing) → t.latched = s.latched

/-- An image byte or CRC changes only by a successful engine step, or is cleared by START or a reset.
[Derived from spec/10_state.md section 5, spec/44_section_checksum.md section 3 (image write)] -/
def Obligations.OnlyTheEngineFillsTheImage : Prop :=
  ∀ s t : State, step s = .next t →
    (s.engineTurn = true ∧ t.ctl = .done) ∨
    ((∀ a, t.img.read a = s.img.read a) ∧ t.crc = s.crc) ∨
    (((s.commandIssued = some .start ∧ s.ctl ≠ .finishing) ∨ s.resetNext = true) ∧
      (∀ a, t.img.read a = 0) ∧ t.crc = 0)

/-- An operand register changes only by a write to its own offset, or by a reset. [Derived from
spec/10_state.md section 3, spec/70_reset_and_hazards.md section 3 (operand capture)] -/
def Obligations.OperandRegistersChangeOnlyByTheirOwnWrite : Prop :=
  ∀ (s t : State) (r : Reg), step s = .next t → r.access = .readWrite → s.resetNext = false →
    (∀ size v, s.env.bus.head? ≠ some (.write size r.offset v)) →
    readReg params t r = readReg params s r

/-- OVF once set stays set until START or a reset, and just before the engine step it is the overflow
verdict. [Derived from spec/44_section_checksum.md section 1 (overflow), spec/10_state.md section 4
(overflow indication)] -/
def Obligations.OvfForetellsTheVerdict : Prop :=
  (∀ s t : State, step s = .next t → s.ovf params = true → s.commandIssued ≠ some .start →
    s.resetNext = false → t.ovf params = true) ∧
  (∀ s t : State, step s = .next t → s.engineTurn = true → s.frames ≠ 0 →
    ((t.ctl = .error ∧ t.err = .inputSectionOverflow) ↔ s.ovf params = true) ∧
    (t.ctl = .done ↔ s.ovf params = false))

/-- A pending FINISH reaches DONE or ERROR within engineWait + 1 steps unless a reset comes first. [Derived
from spec/70_reset_and_hazards.md section 3 (timing), spec/44_section_checksum.md section 1 (engine step)]
The schedule is the model's choice: assumption 3. -/
def Obligations.FinishCompletesUnlessReset : Prop :=
  ∀ s : State, s.ctl = .finishing → (∀ e ∈ s.env.bus.take s.env.engineWait, resets e = false) →
    ∃ k t, k ≤ s.env.engineWait + 1 ∧ Sys2Proof.core.run k s = .next t ∧ (t.ctl = .done ∨ t.ctl = .error)

/-- The encoder, error and image invariants hold at reset. [Derived from spec/70_reset_and_hazards.md
section 1 (hardware reset)] -/
def Obligations.InvariantsHoldAtReset : Prop :=
  EncoderInv State.reset ∧ ErrorInv State.reset ∧ ImageInv State.reset

/-- Every step keeps the encoder within its bounds: counts in 1..255, values in range, FRAMES the number of
samples each channel holds. [States R143] -/
def Obligations.StepKeepsEncoderInv : Prop :=
  (∀ s t : State, EncoderInv s → step s = .next t → EncoderInv t) ∧
  (∀ s : State, EncoderInv s → ∀ c, ∀ e ∈ (s.ch c).sealed, 1 ≤ e.count ∧ e.count ≤ 255)

/-- Every step keeps the error registers right: a code exactly in ERROR, with exactly its own context.
[Derived from spec/60_exceptions.md sections 1 and 2] -/
def Obligations.StepKeepsErrorInv : Prop :=
  ∀ s t : State, ErrorInv s → step s = .next t → ErrorInv t

/-- Every step keeps the output right: nothing before DONE, in DONE the whole image of the sealed channels
and its checksum. [Derived from spec/44_section_checksum.md section 3, spec/10_state.md sections 5 and 6
(CRC)] -/
def Obligations.StepKeepsImageInv : Prop :=
  ∀ s t : State, ImageInv s → step s = .next t → ImageInv t

/-- A recording of more than 5,570,475 samples overflows every legal capacity, so FRAMES saturating changes
no verdict. [Derived from spec/10_state.md section 4 (frames), spec/42_rle.md section 2] -/
def Obligations.LongRecordingsOverflow : Prop :=
  ∀ s : State, EncoderInv s → s.frames.toNat > 5570475 → s.ovf params = true

/-- What FINISH leaves unchanged, every image byte included. [Derived from spec/44_section_checksum.md
section 1 (FINISH, host half)] -/
def Obligations.FinishFrame : Prop :=
  ∀ s t : State, exec .finish s = .next t →
    t.sampleLo = s.sampleLo ∧ t.sampleHi = s.sampleHi ∧ t.sampleTag = s.sampleTag ∧
      t.metaTrack = s.metaTrack ∧ t.metaVehicle = s.metaVehicle ∧ t.metaChar = s.metaChar ∧
      t.metaManual = s.metaManual ∧ t.err = s.err ∧ t.errFields = s.errFields ∧ t.errTag = s.errTag ∧
      t.errRawLo = s.errRawLo ∧ t.errRawHi = s.errRawHi ∧ t.errBytes = s.errBytes ∧
      t.latched = s.latched ∧ t.faceCh = s.faceCh ∧ t.dirCh = s.dirCh ∧ t.trickCh = s.trickCh ∧
      t.frames = s.frames ∧ t.crc = s.crc ∧ (∀ a, t.img.read a = s.img.read a) ∧
      t.env.bus = s.env.bus ∧ t.env.rdata = s.env.rdata ∧
      (s.ctl = .accept → t.illegal = s.illegal) ∧ (s.ctl ≠ .accept → t.ctl = s.ctl)
end

