-- ==== Sys2Proof/Laws/Decode.lean ====
section
/-! SUPPORT. Decoding agrees with encoding, for command words and for register offsets. -/

namespace Sys2Proof

/-- A word is its two fields (R80). -/
theorem toNat_eq_fields (w : Word) : w.toNat = 256 * (zeroField w).toNat + (opField w).toNat := by
  have h : w.toNat < 4294967296 := w.isLt
  simp only [zeroField, opField, BitVec.extractLsb'_toNat, Nat.shiftRight_eq_div_pow]
  norm_num
  omega

/-- A word whose ZERO field is clear is determined by its OP field. -/
theorem eq_of_fields {w v : Word} (hz : zeroField w = zeroField v) (ho : opField w = opField v) : w = v :=
  BitVec.eq_of_toNat_eq (by rw [toNat_eq_fields w, toNat_eq_fields v, hz, ho])

/-- Decoding an encoded command gives it back (R81). -/
@[simp] theorem decode_encode (i : Instr) : decode (encode i) = .ok i := by cases i <;> decide

/-- Only a command's own word decodes to it (R81). -/
theorem eq_encode_of_decode {w : Word} {i : Instr} (h : decode w = .ok i) : w = encode i := by
  unfold decode at h
  split at h
  · cases h
  · rename_i hz
    have hz : zeroField w = 0 := by simpa using hz
    split at h
    · cases h; exact eq_of_fields (by rw [hz]; decide) (by rw [‹opField w = _›]; decide)
    split at h
    · cases h; exact eq_of_fields (by rw [hz]; decide) (by rw [‹opField w = _›]; decide)
    split at h
    · cases h; exact eq_of_fields (by rw [hz]; decide) (by rw [‹opField w = _›]; decide)
    split at h
    · cases h; exact eq_of_fields (by rw [hz]; decide) (by rw [‹opField w = _›]; decide)
    · cases h

theorem decode_eq_ok_iff {w : Word} {i : Instr} : decode w = .ok i ↔ w = encode i :=
  ⟨eq_encode_of_decode, fun h => h ▸ decode_encode i⟩

/-- An offset holds a register exactly if it is that register's offset (R34). -/
theorem regAt_eq_some_iff {off : Offset} {r : Reg} : regAt off = some r ↔ off = r.offset := by
  constructor
  · intro h
    have := List.find?_some h
    simpa using (eq_of_beq this).symm
  · rintro rfl; cases r <;> decide

theorem regAt_eq_none_iff {off : Offset} : regAt off = none ↔ ∀ r : Reg, off ≠ r.offset := by
  constructor
  · rintro h r rfl
    rw [(regAt_eq_some_iff (r := r)).2 rfl] at h
    cases h
  · intro h
    cases hr : regAt off with
    | none => rfl
    | some r => exact absurd (regAt_eq_some_iff.1 hr) (h r)

/-- The offsets of the map are aligned and lie below the reserved range (R34). -/
theorem Reg.offset_toNat (r : Reg) : r.offset.toNat % 4 = 0 ∧ r.offset.toNat < 0x50 := by
  cases r <;> decide

/-- The decoder of accesses accepts what is well formed (R62, R63). -/
theorem accessOk_eq_wf (size : AccessSize) (off : Offset) (v : Word) :
    accessOk size off = (BusEvent.read size off).wf ∧ accessOk size off = (BusEvent.write size off v).wf :=
  ⟨rfl, rfl⟩

theorem accessOk_offset (r : Reg) : accessOk .word r.offset = true := by cases r <;> decide

theorem accessOk_iff {size : AccessSize} {off : Offset} :
    accessOk size off = true ↔ size = .word ∧ off.toNat % 4 = 0 := by
  simp [accessOk]

theorem accessOk_false_iff {size : AccessSize} {off : Offset} :
    accessOk size off = false ↔ size ≠ .word ∨ off.toNat % 4 ≠ 0 := by
  rw [← Bool.not_eq_true, accessOk_iff]; tauto

end Sys2Proof
end

