-- ==== Sys2Proof/Laws/Memory.lean ====
section
/-! SUPPORT. Numbers, byte order, the parameters, and the image as memory: reading after loading, and the canonical
form that loading and clearing keep. -/

namespace Sys2Proof.Machine

/-! ### Numbers -/

theorem sat32_toNat (n : Nat) : (sat32 n).toNat = min n 0xFFFFFFFF := by
  simp only [sat32, BitVec.toNat_ofNat]
  omega

/-- Counting on from a saturated number saturates as counting on from the number itself. -/
theorem sat32_add_one (n : Nat) : sat32 ((sat32 n).toNat + 1) = sat32 (n + 1) := by
  apply BitVec.eq_of_toNat_eq
  simp only [sat32_toNat]
  omega

theorem sat32_succ_ne_zero (n : Nat) : sat32 (n + 1) ≠ 0 := by
  intro h
  have := congrArg BitVec.toNat h
  rw [sat32_toNat] at this
  simp at this

/-- A byte appended below a bit vector. -/
theorem toNat_append_byte {n : Nat} (x : BitVec n) (b : Byte) : (x ++ b).toNat = x.toNat * 2 ^ 8 + b.toNat := by
  rw [BitVec.toNat_append, ← Nat.shiftLeft_add_eq_or_of_lt b.isLt, Nat.shiftLeft_eq]

theorem packWord_toNat (b0 b1 b2 b3 : Byte) :
    (packWord b0 b1 b2 b3).toNat =
      b0.toNat * 2 ^ 24 + b1.toNat * 2 ^ 16 + b2.toNat * 2 ^ 8 + b3.toNat := by
  rw [packWord, toNat_append_byte, toNat_append_byte, toNat_append_byte]
  ring

/-- The four bytes of `be32` are the word's, most significant first. -/
theorem be32_toNat (w : Word) :
    ((be32 w).getD 0 0).toNat * 2 ^ 24 + ((be32 w).getD 1 0).toNat * 2 ^ 16 + ((be32 w).getD 2 0).toNat * 2 ^ 8 +
      ((be32 w).getD 3 0).toNat = w.toNat := by
  have h := w.isLt
  simp only [be32, List.getD_cons_zero, List.getD_cons_succ, BitVec.extractLsb'_toNat,
    Nat.shiftRight_eq_div_pow]
  norm_num
  omega

/-- The two bytes of `be16`, as a number, for numbers of 16 bits. -/
theorem be16_toNat {n : Nat} (h : n < 2 ^ 16) :
    ((be16 n).getD 0 0).toNat * 256 + ((be16 n).getD 1 0).toNat = n := by
  simp only [be16, List.getD_cons_zero, List.getD_cons_succ, BitVec.toNat_ofNat, Nat.shiftRight_eq_div_pow]
  norm_num at h ⊢
  omega

@[simp] theorem be16_length (n : Nat) : (be16 n).length = 2 := rfl
@[simp] theorem be32_length (w : Word) : (be32 w).length = 4 := rfl

/-- The parameters of this machine are legal (R5, R7). -/
theorem params_wf : params.wf = true := by
  have h := Config.capAboveMin.isLt
  simp [Params.wf, params, Config.cap]
  omega

theorem params_cap_bounds : 6 ≤ params.cap ∧ params.cap ≤ 131070 := by
  simpa [Params.wf] using params_wf

/-! ### The image as memory -/

@[simp] theorem Memory.read_clear (a : Nat) : Memory.read Memory.clear a = 0 := rfl

/-- Below its base a loaded memory reads 0. -/
theorem Memory.read_load_of_lt {base a : Nat} (bytes : List Byte) (h : a < base) :
    (Memory.load base bytes).read a = 0 := by
  induction bytes generalizing base with
  | nil => rfl
  | cons b rest ih =>
    unfold Memory.load
    split
    · exact ih (by omega)
    · rw [Memory.read, if_neg (by omega)]
      exact ih (by omega)

/-- A loaded memory reads the bytes that were loaded, and 0 behind them. -/
theorem Memory.read_load (base : Nat) (bytes : List Byte) (i : Nat) :
    (Memory.load base bytes).read (base + i) = bytes.getD i 0 := by
  induction bytes generalizing base i with
  | nil => rfl
  | cons b rest ih =>
    unfold Memory.load
    split
    · rename_i hb
      cases i with
      | zero => rw [Memory.read_load_of_lt rest (by omega)]; exact hb.symm
      | succ i => rw [show base + (i + 1) = base + 1 + i by omega, ih]; rfl
    · cases i with
      | zero => rw [Memory.read, if_pos (by omega)]; rfl
      | succ i => rw [Memory.read, if_neg (by omega), show base + (i + 1) = base + 1 + i by omega, ih]; rfl

theorem Memory.read_load_zero (bytes : List Byte) (i : Nat) : (Memory.load 0 bytes).read i = bytes.getD i 0 := by
  simpa using Memory.read_load 0 bytes i

theorem Memory.wfFrom_mono {lo hi : Nat} {m : Memory} (h : lo ≤ hi) (hw : Memory.wfFrom hi m = true) :
    Memory.wfFrom lo m = true := by
  cases m with
  | nil => rfl
  | cons c rest =>
    obtain ⟨k, b⟩ := c
    simp only [Memory.wfFrom, Bool.and_eq_true, decide_eq_true_eq] at hw ⊢
    exact ⟨⟨by omega, hw.1.2⟩, hw.2⟩

/-- Loading gives the canonical form. -/
theorem Memory.wfFrom_load (base : Nat) (bytes : List Byte) :
    Memory.wfFrom base (Memory.load base bytes) = true := by
  induction bytes generalizing base with
  | nil => rfl
  | cons b rest ih =>
    unfold Memory.load
    split
    · exact Memory.wfFrom_mono (by omega) (ih (base + 1))
    · rename_i hb
      simp [Memory.wfFrom, hb, ih]

theorem Memory.wf_load (base : Nat) (bytes : List Byte) : (Memory.load base bytes).wf = true :=
  Memory.wfFrom_mono (Nat.zero_le _) (Memory.wfFrom_load base bytes)

@[simp] theorem Memory.wf_clear : Memory.clear.wf = true := rfl

/-- In canonical form an index below the bound reads 0. -/
theorem Memory.read_of_wfFrom {lo a : Nat} {m : Memory} (hw : Memory.wfFrom lo m = true) (h : a < lo) :
    m.read a = 0 := by
  induction m generalizing lo with
  | nil => rfl
  | cons c rest ih =>
    obtain ⟨k, b⟩ := c
    simp only [Memory.wfFrom, Bool.and_eq_true, decide_eq_true_eq] at hw
    rw [Memory.read, if_neg (by omega)]
    exact ih hw.2 (by omega)

/-- Canonical memories that read alike are equal data. -/
theorem Memory.ext_of_wfFrom {lo : Nat} {m n : Memory} (hm : Memory.wfFrom lo m = true)
    (hn : Memory.wfFrom lo n = true) (h : ∀ a, m.read a = n.read a) : m = n := by
  induction m generalizing lo n with
  | nil =>
    cases n with
    | nil => rfl
    | cons c rest =>
      obtain ⟨k, b⟩ := c
      simp only [Memory.wfFrom, Bool.and_eq_true, decide_eq_true_eq] at hn
      have := h k
      rw [Memory.read, Memory.read, if_pos rfl] at this
      exact absurd this.symm hn.1.2
  | cons c rest ih =>
    obtain ⟨k, b⟩ := c
    have hm' := hm
    simp only [Memory.wfFrom, Bool.and_eq_true, decide_eq_true_eq] at hm
    cases n with
    | nil =>
      have := h k
      rw [Memory.read, Memory.read, if_pos rfl] at this
      exact absurd this hm.1.2
    | cons d rest' =>
      obtain ⟨k', b'⟩ := d
      have hn' := hn
      simp only [Memory.wfFrom, Bool.and_eq_true, decide_eq_true_eq] at hn
      obtain hlt | rfl | hlt := Nat.lt_trichotomy k k'
      · have := h k
        rw [Memory.read, if_pos rfl, Memory.read, if_neg (by omega),
          Memory.read_of_wfFrom hn.2 (by omega)] at this
        exact absurd this hm.1.2
      · have hb := h k
        rw [Memory.read, if_pos rfl, Memory.read, if_pos rfl] at hb
        subst hb
        refine congrArg _ (ih hm.2 hn.2 fun a => ?_)
        obtain hlt | rfl | hgt := Nat.lt_trichotomy a k
        · rw [Memory.read_of_wfFrom hm.2 (by omega), Memory.read_of_wfFrom hn.2 (by omega)]
        · rw [Memory.read_of_wfFrom hm.2 (by omega), Memory.read_of_wfFrom hn.2 (by omega)]
        · have := h a
          rwa [Memory.read, if_neg (by omega), Memory.read, if_neg (by omega)] at this
      · have := h k'
        rw [Memory.read, if_neg (by omega), Memory.read_of_wfFrom hm.2 (by omega), Memory.read, if_pos rfl] at this
        exact absurd this.symm hn.1.2

end Sys2Proof.Machine
end

