-- ==== Sys2Proof/Laws/Operands.lean ====
section
/-! SUPPORT. Masks, the checks of PUSH and START, the channel values, and the host's packing. -/

namespace Sys2Proof.Machine

/-! ### Masks and checks -/

/-- Each bit of a mask is the flag given for it. -/
theorem mask6_getLsbD (b0 b1 b2 b3 b4 b5 : Bool) :
    (mask6 b0 b1 b2 b3 b4 b5).getLsbD 0 = b0 ∧ (mask6 b0 b1 b2 b3 b4 b5).getLsbD 1 = b1 ∧
    (mask6 b0 b1 b2 b3 b4 b5).getLsbD 2 = b2 ∧ (mask6 b0 b1 b2 b3 b4 b5).getLsbD 3 = b3 ∧
    (mask6 b0 b1 b2 b3 b4 b5).getLsbD 4 = b4 ∧ (mask6 b0 b1 b2 b3 b4 b5).getLsbD 5 = b5 := by
  revert b0 b1 b2 b3 b4 b5; decide

/-- A mask is 0 if no flag is set, and its low bits bound it if only low flags may be set. -/
theorem mask6_eq_zero_iff (b0 b1 b2 b3 b4 b5 : Bool) :
    mask6 b0 b1 b2 b3 b4 b5 = 0 ↔
      b0 = false ∧ b1 = false ∧ b2 = false ∧ b3 = false ∧ b4 = false ∧ b5 = false := by
  revert b0 b1 b2 b3 b4 b5; decide

theorem mask6_toNat_lt (b0 b1 b2 b3 : Bool) : (mask6 b0 b1 b2 b3 false false).toNat < 16 := by
  revert b0 b1 b2 b3; decide

theorem outside_eq_true_iff (lo hi v : Int) : outside lo hi v = true ↔ ¬ (lo ≤ v ∧ v ≤ hi) := by
  simp [outside]; omega

theorem outside_eq_false_iff (lo hi v : Int) : outside lo hi v = false ↔ lo ≤ v ∧ v ≤ hi := by
  simp [outside]

/-- FieldCheck passes exactly the samples with every field in range (R121). -/
theorem fieldCheck_eq_zero_iff (p : Sample) :
    fieldCheck p = 0 ↔
      (0 ≤ p.a ∧ p.a ≤ 1) ∧ (0 ≤ p.b ∧ p.b ≤ 1) ∧ (0 ≤ p.item ∧ p.item ≤ 1) ∧ (-7 ≤ p.x ∧ p.x ≤ 7) ∧
        (-7 ≤ p.y ∧ p.y ≤ 7) ∧ (0 ≤ p.trick ∧ p.trick ≤ 4) := by
  rw [fieldCheck, mask6_eq_zero_iff]
  simp only [outside_eq_false_iff]

/-- MetaCheck of this hardware passes exactly the legal metadata (R110). -/
theorem metaBad_eq_zero_iff (s : State) : s.metaBad params = 0 ↔ s.metaLegal := by
  rw [State.metaBad, metaCheck, mask6_eq_zero_iff]
  simp [charMax, params, Config.charSplit, State.metaLegal]

theorem metaBad_toNat_lt (P : Params) (s : State) : (s.metaBad P).toNat < 16 := mask6_toNat_lt _ _ _ _

/-! ### Channel values -/

/-- The face value of a sample in range (R124). -/
theorem faceValue_toNat {p : Sample} (h : fieldCheck p = 0) :
    ((faceValue p).toNat : Int) = p.a + 2 * p.b + 4 * p.item := by
  obtain ⟨ha, hb, hi, -⟩ := (fieldCheck_eq_zero_iff p).1 h
  have h0 : p.a = 0 ∨ p.a = 1 := by omega
  have h1 : p.b = 0 ∨ p.b = 1 := by omega
  have h2 : p.item = 0 ∨ p.item = 1 := by omega
  unfold faceValue
  rcases h0 with h0 | h0 <;> rcases h1 with h1 | h1 <;> rcases h2 with h2 | h2 <;> rw [h0, h1, h2] <;> decide

/-- A number below 16 in the low nibble of a byte. -/
theorem nibbles_toNat {m n : Nat} (hm : m < 16) (hn : n < 16) :
    ((BitVec.ofNat 8 m <<< 4) ||| BitVec.ofNat 8 n).toNat = 16 * m + n := by
  interval_cases m <;> interval_cases n <;> rfl

theorem ofInt_eq_ofNat {z : Int} (h : 0 ≤ z) : BitVec.ofInt 8 z = BitVec.ofNat 8 z.toNat := by
  obtain ⟨n, rfl⟩ := Int.eq_ofNat_of_zero_le h
  rfl

/-- The direction value of a sample in range (R125). -/
theorem dirValue_toNat {p : Sample} (h : fieldCheck p = 0) :
    (dirValue p).toNat = 16 * (p.y + 7).toNat + (p.x + 7).toNat := by
  obtain ⟨-, -, -, hx, hy, -⟩ := (fieldCheck_eq_zero_iff p).1 h
  rw [dirValue, ofInt_eq_ofNat (by omega), ofInt_eq_ofNat (by omega), nibbles_toNat (by omega) (by omega)]

/-- The trick value of a sample in range (R126). -/
theorem trickValue_toNat {p : Sample} (h : fieldCheck p = 0) : (trickValue p).toNat = p.trick.toNat := by
  obtain ⟨-, -, -, -, -, ht⟩ := (fieldCheck_eq_zero_iff p).1 h
  rw [trickValue, ofInt_eq_ofNat (by omega), BitVec.toNat_ofNat]
  omega

/-- An accepted sample presents to each channel a value of that channel (R124 to R126). -/
theorem channelValue_ok {p : Sample} (h : fieldCheck p = 0) (c : Chan) : valueOk c (channelValue p c) := by
  have hr := (fieldCheck_eq_zero_iff p).1 h
  cases c with
  | face => have := faceValue_toNat h; simp only [valueOk, channelValue]; omega
  | dir => have := dirValue_toNat h; simp only [valueOk, channelValue]; omega
  | trick => have := trickValue_toNat h; simp only [valueOk, channelValue]; omega

/-! ### Packing -/

theorem saturateRaw_bounds (r : Int) : -128 ≤ saturateRaw r ∧ saturateRaw r ≤ 127 := by
  unfold saturateRaw; omega

theorem saturateRaw_of_ok {r : Int} (h : rawFieldOk r = true) : saturateRaw r = r := by
  simp [rawFieldOk] at h
  unfold saturateRaw; omega

/-- Saturation keeps which side of a small range a number is on (R83). -/
theorem outside_saturateRaw {lo hi : Int} (hlo : -128 < lo) (hhi : hi < 127) (r : Int) :
    outside lo hi (saturateRaw r) = outside lo hi r := by
  rw [Bool.eq_iff_iff, outside_eq_true_iff, outside_eq_true_iff, saturateRaw]
  omega

theorem toInt_ofInt_saturateRaw (r : Int) : (BitVec.ofInt 8 (saturateRaw r)).toInt = saturateRaw r := by
  have := saturateRaw_bounds r
  rw [BitVec.toInt_ofInt]
  simp only [Int.bmod]
  omega

theorem extract4 (b0 b1 b2 b3 : Byte) :
    (b3 ++ b2 ++ b1 ++ b0 : Word).extractLsb' 0 8 = b0 ∧ (b3 ++ b2 ++ b1 ++ b0 : Word).extractLsb' 8 8 = b1 ∧
    (b3 ++ b2 ++ b1 ++ b0 : Word).extractLsb' 16 8 = b2 ∧ (b3 ++ b2 ++ b1 ++ b0 : Word).extractLsb' 24 8 = b3 := by
  have h : (b3 ++ b2 ++ b1 ++ b0 : Word).toNat =
      b3.toNat * 2 ^ 24 + b2.toNat * 2 ^ 16 + b1.toNat * 2 ^ 8 + b0.toNat := packWord_toNat b3 b2 b1 b0
  have h0 := b0.isLt; have h1 := b1.isLt; have h2 := b2.isLt; have h3 := b3.isLt
  refine ⟨?_, ?_, ?_, ?_⟩ <;> apply BitVec.eq_of_toNat_eq <;>
    rw [BitVec.extractLsb'_toNat, h, Nat.shiftRight_eq_div_pow] <;> norm_num at * <;> omega

theorem extract2 (b0 b1 : Byte) :
    (((b1 ++ b0 : BitVec 16).setWidth 32).setWidth 16).extractLsb' 0 8 = b0 ∧
    (((b1 ++ b0 : BitVec 16).setWidth 32).setWidth 16).extractLsb' 8 8 = b1 ∧
    ((b1 ++ b0 : BitVec 16).setWidth 32).toNat < 2 ^ 16 := by
  have h0 := b0.isLt; have h1 := b1.isLt
  have h : (b1 ++ b0 : BitVec 16).toNat = b1.toNat * 2 ^ 8 + b0.toNat := toNat_append_byte b1 b0
  refine ⟨?_, ?_, ?_⟩
  · apply BitVec.eq_of_toNat_eq
    rw [BitVec.extractLsb'_toNat, BitVec.toNat_setWidth, BitVec.toNat_setWidth, h, Nat.shiftRight_eq_div_pow]
    norm_num at *; omega
  · apply BitVec.eq_of_toNat_eq
    rw [BitVec.extractLsb'_toNat, BitVec.toNat_setWidth, BitVec.toNat_setWidth, h, Nat.shiftRight_eq_div_pow]
    norm_num at *; omega
  · rw [BitVec.toNat_setWidth, h]; norm_num at *; omega

/-- The fields extracted from a packed record are the saturated fields (R83, R85). -/
theorem sampleOf_pack (r : Record) :
    sampleOf (packSampleLo r) ((packSampleHi r).setWidth 16) =
      { a := saturateRaw r.a, b := saturateRaw r.b, item := saturateRaw r.item, x := saturateRaw r.x,
        y := saturateRaw r.y, trick := saturateRaw r.trick } := by
  obtain ⟨h0, h1, h2, h3⟩ := extract4 (BitVec.ofInt 8 (saturateRaw r.a)) (BitVec.ofInt 8 (saturateRaw r.b))
    (BitVec.ofInt 8 (saturateRaw r.item)) (BitVec.ofInt 8 (saturateRaw r.x))
  obtain ⟨h4, h5, -⟩ := extract2 (BitVec.ofInt 8 (saturateRaw r.y)) (BitVec.ofInt 8 (saturateRaw r.trick))
  simp only [sampleOf, signedByteAt, packSampleLo, packSampleHi, h0, h1, h2, h3, h4, h5,
    toInt_ofInt_saturateRaw]

end Sys2Proof.Machine
end

