-- ==== Sys2Proof/Laws/State.lean ====
section
/-! SUPPORT. One group of field equations per named update of State, each true by computation, so that no
proof unfolds a record update. -/

namespace Sys2Proof.Machine

/-- Only ILLEGAL changes (R11). -/
@[simp] theorem flagIllegal_fields (s : State) :
    (flagIllegal s).ctl = s.ctl ∧ (flagIllegal s).illegal = true ∧ (flagIllegal s).err = s.err ∧
    (flagIllegal s).errFields = s.errFields ∧ (flagIllegal s).errTag = s.errTag ∧
    (flagIllegal s).errRawLo = s.errRawLo ∧ (flagIllegal s).errRawHi = s.errRawHi ∧
    (flagIllegal s).errBytes = s.errBytes ∧ (flagIllegal s).sampleLo = s.sampleLo ∧
    (flagIllegal s).sampleHi = s.sampleHi ∧ (flagIllegal s).sampleTag = s.sampleTag ∧
    (flagIllegal s).metaTrack = s.metaTrack ∧ (flagIllegal s).metaVehicle = s.metaVehicle ∧
    (flagIllegal s).metaChar = s.metaChar ∧ (flagIllegal s).metaManual = s.metaManual ∧
    (flagIllegal s).latched = s.latched ∧ (flagIllegal s).faceCh = s.faceCh ∧
    (flagIllegal s).dirCh = s.dirCh ∧ (flagIllegal s).trickCh = s.trickCh ∧
    (flagIllegal s).frames = s.frames ∧ (flagIllegal s).img = s.img ∧ (flagIllegal s).crc = s.crc ∧
    (flagIllegal s).env = s.env :=
  ⟨rfl, rfl, rfl, rfl, rfl, rfl, rfl, rfl, rfl, rfl, rfl, rfl, rfl, rfl, rfl, rfl, rfl, rfl, rfl, rfl, rfl,
    rfl, rfl⟩

/-- Only the error registers and the control state change (R224). -/
@[simp] theorem raiseError_fields (e : ErrorInfo) (s : State) :
    (raiseError e s).ctl = Ctl.error ∧ (raiseError e s).illegal = s.illegal ∧ (raiseError e s).err = e.code ∧
    (raiseError e s).errFields = e.fields ∧ (raiseError e s).errTag = e.tag ∧
    (raiseError e s).errRawLo = e.rawLo ∧ (raiseError e s).errRawHi = e.rawHi ∧
    (raiseError e s).errBytes = e.bytes ∧ (raiseError e s).sampleLo = s.sampleLo ∧
    (raiseError e s).sampleHi = s.sampleHi ∧ (raiseError e s).sampleTag = s.sampleTag ∧
    (raiseError e s).metaTrack = s.metaTrack ∧ (raiseError e s).metaVehicle = s.metaVehicle ∧
    (raiseError e s).metaChar = s.metaChar ∧ (raiseError e s).metaManual = s.metaManual ∧
    (raiseError e s).latched = s.latched ∧ (raiseError e s).faceCh = s.faceCh ∧
    (raiseError e s).dirCh = s.dirCh ∧ (raiseError e s).trickCh = s.trickCh ∧
    (raiseError e s).frames = s.frames ∧ (raiseError e s).img = s.img ∧ (raiseError e s).crc = s.crc ∧
    (raiseError e s).env = s.env :=
  ⟨rfl, rfl, rfl, rfl, rfl, rfl, rfl, rfl, rfl, rfl, rfl, rfl, rfl, rfl, rfl, rfl, rfl, rfl, rfl, rfl, rfl,
    rfl, rfl⟩

/-- Only the error registers change (R101). -/
@[simp] theorem clearError_fields (s : State) :
    (clearError s).ctl = s.ctl ∧ (clearError s).illegal = s.illegal ∧ (clearError s).err = ErrCode.none ∧
    (clearError s).errFields = 0 ∧ (clearError s).errTag = 0 ∧ (clearError s).errRawLo = 0 ∧
    (clearError s).errRawHi = 0 ∧ (clearError s).errBytes = 0 ∧ (clearError s).sampleLo = s.sampleLo ∧
    (clearError s).sampleHi = s.sampleHi ∧ (clearError s).sampleTag = s.sampleTag ∧
    (clearError s).metaTrack = s.metaTrack ∧ (clearError s).metaVehicle = s.metaVehicle ∧
    (clearError s).metaChar = s.metaChar ∧ (clearError s).metaManual = s.metaManual ∧
    (clearError s).latched = s.latched ∧ (clearError s).faceCh = s.faceCh ∧ (clearError s).dirCh = s.dirCh ∧
    (clearError s).trickCh = s.trickCh ∧ (clearError s).frames = s.frames ∧ (clearError s).img = s.img ∧
    (clearError s).crc = s.crc ∧ (clearError s).env = s.env :=
  ⟨rfl, rfl, rfl, rfl, rfl, rfl, rfl, rfl, rfl, rfl, rfl, rfl, rfl, rfl, rfl, rfl, rfl, rfl, rfl, rfl, rfl,
    rfl, rfl⟩

/-- Only the encode's state changes (R101). -/
@[simp] theorem clearEncode_fields (s : State) :
    (clearEncode s).ctl = s.ctl ∧ (clearEncode s).illegal = s.illegal ∧ (clearEncode s).err = s.err ∧
    (clearEncode s).errFields = s.errFields ∧ (clearEncode s).errTag = s.errTag ∧
    (clearEncode s).errRawLo = s.errRawLo ∧ (clearEncode s).errRawHi = s.errRawHi ∧
    (clearEncode s).errBytes = s.errBytes ∧ (clearEncode s).sampleLo = s.sampleLo ∧
    (clearEncode s).sampleHi = s.sampleHi ∧ (clearEncode s).sampleTag = s.sampleTag ∧
    (clearEncode s).metaTrack = s.metaTrack ∧ (clearEncode s).metaVehicle = s.metaVehicle ∧
    (clearEncode s).metaChar = s.metaChar ∧ (clearEncode s).metaManual = s.metaManual ∧
    (clearEncode s).latched = { track := 0, vehicle := 0, character := 0, manual := 0 } ∧
    (clearEncode s).faceCh = Channel.empty ∧ (clearEncode s).dirCh = Channel.empty ∧
    (clearEncode s).trickCh = Channel.empty ∧ (clearEncode s).frames = 0 ∧
    (clearEncode s).img = Memory.clear ∧ (clearEncode s).crc = 0 ∧ (clearEncode s).env = s.env :=
  ⟨rfl, rfl, rfl, rfl, rfl, rfl, rfl, rfl, rfl, rfl, rfl, rfl, rfl, rfl, rfl, rfl, rfl, rfl, rfl, rfl, rfl,
    rfl, rfl⟩

/-- Every field of the block at its reset value (R100). -/
@[simp] theorem resetBlock_fields (s : State) :
    (resetBlock s).ctl = State.reset.ctl ∧ (resetBlock s).illegal = State.reset.illegal ∧
    (resetBlock s).err = State.reset.err ∧ (resetBlock s).errFields = State.reset.errFields ∧
    (resetBlock s).errTag = State.reset.errTag ∧ (resetBlock s).errRawLo = State.reset.errRawLo ∧
    (resetBlock s).errRawHi = State.reset.errRawHi ∧ (resetBlock s).errBytes = State.reset.errBytes ∧
    (resetBlock s).sampleLo = State.reset.sampleLo ∧ (resetBlock s).sampleHi = State.reset.sampleHi ∧
    (resetBlock s).sampleTag = State.reset.sampleTag ∧ (resetBlock s).metaTrack = State.reset.metaTrack ∧
    (resetBlock s).metaVehicle = State.reset.metaVehicle ∧ (resetBlock s).metaChar = State.reset.metaChar ∧
    (resetBlock s).metaManual = State.reset.metaManual ∧ (resetBlock s).latched = State.reset.latched ∧
    (resetBlock s).faceCh = State.reset.faceCh ∧ (resetBlock s).dirCh = State.reset.dirCh ∧
    (resetBlock s).trickCh = State.reset.trickCh ∧ (resetBlock s).frames = State.reset.frames ∧
    (resetBlock s).img = State.reset.img ∧ (resetBlock s).crc = State.reset.crc ∧ (resetBlock s).env = s.env :=
  ⟨rfl, rfl, rfl, rfl, rfl, rfl, rfl, rfl, rfl, rfl, rfl, rfl, rfl, rfl, rfl, rfl, rfl, rfl, rfl, rfl, rfl,
    rfl, rfl⟩

/-- Only the channels change (R183). -/
@[simp] theorem sealChannels_fields (s : State) :
    (sealChannels s).ctl = s.ctl ∧ (sealChannels s).illegal = s.illegal ∧ (sealChannels s).err = s.err ∧
    (sealChannels s).errFields = s.errFields ∧ (sealChannels s).errTag = s.errTag ∧
    (sealChannels s).errRawLo = s.errRawLo ∧ (sealChannels s).errRawHi = s.errRawHi ∧
    (sealChannels s).errBytes = s.errBytes ∧ (sealChannels s).sampleLo = s.sampleLo ∧
    (sealChannels s).sampleHi = s.sampleHi ∧ (sealChannels s).sampleTag = s.sampleTag ∧
    (sealChannels s).metaTrack = s.metaTrack ∧ (sealChannels s).metaVehicle = s.metaVehicle ∧
    (sealChannels s).metaChar = s.metaChar ∧ (sealChannels s).metaManual = s.metaManual ∧
    (sealChannels s).latched = s.latched ∧ (sealChannels s).faceCh = s.faceCh.closeRun ∧
    (sealChannels s).dirCh = s.dirCh.closeRun ∧ (sealChannels s).trickCh = s.trickCh.closeRun ∧
    (sealChannels s).frames = s.frames ∧ (sealChannels s).img = s.img ∧ (sealChannels s).crc = s.crc ∧
    (sealChannels s).env = s.env :=
  ⟨rfl, rfl, rfl, rfl, rfl, rfl, rfl, rfl, rfl, rfl, rfl, rfl, rfl, rfl, rfl, rfl, rfl, rfl, rfl, rfl, rfl,
    rfl, rfl⟩

/-- Only the error registers and the control state change (R122). -/
@[simp] theorem rejectSample_fields (bad : BitVec 6) (s : State) :
    (rejectSample bad s).ctl = Ctl.error ∧ (rejectSample bad s).illegal = s.illegal ∧
    (rejectSample bad s).err = ErrCode.malformedRecord ∧ (rejectSample bad s).errFields = bad ∧
    (rejectSample bad s).errTag = s.sampleTag ∧ (rejectSample bad s).errRawLo = s.sampleLo ∧
    (rejectSample bad s).errRawHi = s.sampleHi.setWidth 32 ∧ (rejectSample bad s).errBytes = 0 ∧
    (rejectSample bad s).sampleLo = s.sampleLo ∧ (rejectSample bad s).sampleHi = s.sampleHi ∧
    (rejectSample bad s).sampleTag = s.sampleTag ∧ (rejectSample bad s).metaTrack = s.metaTrack ∧
    (rejectSample bad s).metaVehicle = s.metaVehicle ∧ (rejectSample bad s).metaChar = s.metaChar ∧
    (rejectSample bad s).metaManual = s.metaManual ∧ (rejectSample bad s).latched = s.latched ∧
    (rejectSample bad s).faceCh = s.faceCh ∧ (rejectSample bad s).dirCh = s.dirCh ∧
    (rejectSample bad s).trickCh = s.trickCh ∧ (rejectSample bad s).frames = s.frames ∧
    (rejectSample bad s).img = s.img ∧ (rejectSample bad s).crc = s.crc ∧ (rejectSample bad s).env = s.env :=
  ⟨rfl, rfl, rfl, rfl, rfl, rfl, rfl, rfl, rfl, rfl, rfl, rfl, rfl, rfl, rfl, rfl, rfl, rfl, rfl, rfl, rfl,
    rfl, rfl⟩

/-- Only the control state and the schedule change (R180). -/
@[simp] theorem requestFinish_fields (s : State) :
    (requestFinish s).ctl = Ctl.finishing ∧ (requestFinish s).illegal = s.illegal ∧
    (requestFinish s).err = s.err ∧ (requestFinish s).errFields = s.errFields ∧
    (requestFinish s).errTag = s.errTag ∧ (requestFinish s).errRawLo = s.errRawLo ∧
    (requestFinish s).errRawHi = s.errRawHi ∧ (requestFinish s).errBytes = s.errBytes ∧
    (requestFinish s).sampleLo = s.sampleLo ∧ (requestFinish s).sampleHi = s.sampleHi ∧
    (requestFinish s).sampleTag = s.sampleTag ∧ (requestFinish s).metaTrack = s.metaTrack ∧
    (requestFinish s).metaVehicle = s.metaVehicle ∧ (requestFinish s).metaChar = s.metaChar ∧
    (requestFinish s).metaManual = s.metaManual ∧ (requestFinish s).latched = s.latched ∧
    (requestFinish s).faceCh = s.faceCh ∧ (requestFinish s).dirCh = s.dirCh ∧
    (requestFinish s).trickCh = s.trickCh ∧ (requestFinish s).frames = s.frames ∧
    (requestFinish s).img = s.img ∧ (requestFinish s).crc = s.crc ∧
    (requestFinish s).env = { s.env with engineWait := Config.engineDelay s.env.finishes, finishes := s.env.finishes + 1 } :=
  ⟨rfl, rfl, rfl, rfl, rfl, rfl, rfl, rfl, rfl, rfl, rfl, rfl, rfl, rfl, rfl, rfl, rfl, rfl, rfl, rfl, rfl,
    rfl, rfl⟩

/-- Only the read data changes (R67). -/
@[simp] theorem withRdata_fields (v : Word) (s : State) :
    (s.withRdata v).ctl = s.ctl ∧ (s.withRdata v).illegal = s.illegal ∧ (s.withRdata v).err = s.err ∧
    (s.withRdata v).errFields = s.errFields ∧ (s.withRdata v).errTag = s.errTag ∧
    (s.withRdata v).errRawLo = s.errRawLo ∧ (s.withRdata v).errRawHi = s.errRawHi ∧
    (s.withRdata v).errBytes = s.errBytes ∧ (s.withRdata v).sampleLo = s.sampleLo ∧
    (s.withRdata v).sampleHi = s.sampleHi ∧ (s.withRdata v).sampleTag = s.sampleTag ∧
    (s.withRdata v).metaTrack = s.metaTrack ∧ (s.withRdata v).metaVehicle = s.metaVehicle ∧
    (s.withRdata v).metaChar = s.metaChar ∧ (s.withRdata v).metaManual = s.metaManual ∧
    (s.withRdata v).latched = s.latched ∧ (s.withRdata v).faceCh = s.faceCh ∧
    (s.withRdata v).dirCh = s.dirCh ∧ (s.withRdata v).trickCh = s.trickCh ∧
    (s.withRdata v).frames = s.frames ∧ (s.withRdata v).img = s.img ∧ (s.withRdata v).crc = s.crc ∧
    (s.withRdata v).env = { s.env with rdata := v } :=
  ⟨rfl, rfl, rfl, rfl, rfl, rfl, rfl, rfl, rfl, rfl, rfl, rfl, rfl, rfl, rfl, rfl, rfl, rfl, rfl, rfl, rfl,
    rfl, rfl⟩

/-- Only the coming events change. -/
@[simp] theorem withBus_fields (b : List BusEvent) (s : State) :
    (s.withBus b).ctl = s.ctl ∧ (s.withBus b).illegal = s.illegal ∧ (s.withBus b).err = s.err ∧
    (s.withBus b).errFields = s.errFields ∧ (s.withBus b).errTag = s.errTag ∧
    (s.withBus b).errRawLo = s.errRawLo ∧ (s.withBus b).errRawHi = s.errRawHi ∧
    (s.withBus b).errBytes = s.errBytes ∧ (s.withBus b).sampleLo = s.sampleLo ∧
    (s.withBus b).sampleHi = s.sampleHi ∧ (s.withBus b).sampleTag = s.sampleTag ∧
    (s.withBus b).metaTrack = s.metaTrack ∧ (s.withBus b).metaVehicle = s.metaVehicle ∧
    (s.withBus b).metaChar = s.metaChar ∧ (s.withBus b).metaManual = s.metaManual ∧
    (s.withBus b).latched = s.latched ∧ (s.withBus b).faceCh = s.faceCh ∧ (s.withBus b).dirCh = s.dirCh ∧
    (s.withBus b).trickCh = s.trickCh ∧ (s.withBus b).frames = s.frames ∧ (s.withBus b).img = s.img ∧
    (s.withBus b).crc = s.crc ∧ (s.withBus b).env = { s.env with bus := b } :=
  ⟨rfl, rfl, rfl, rfl, rfl, rfl, rfl, rfl, rfl, rfl, rfl, rfl, rfl, rfl, rfl, rfl, rfl, rfl, rfl, rfl, rfl,
    rfl, rfl⟩

/-- Only the coming events and the wait change. -/
@[simp] theorem afterEvent_fields (b : List BusEvent) (s : State) :
    (s.afterEvent b).ctl = s.ctl ∧ (s.afterEvent b).illegal = s.illegal ∧ (s.afterEvent b).err = s.err ∧
    (s.afterEvent b).errFields = s.errFields ∧ (s.afterEvent b).errTag = s.errTag ∧
    (s.afterEvent b).errRawLo = s.errRawLo ∧ (s.afterEvent b).errRawHi = s.errRawHi ∧
    (s.afterEvent b).errBytes = s.errBytes ∧ (s.afterEvent b).sampleLo = s.sampleLo ∧
    (s.afterEvent b).sampleHi = s.sampleHi ∧ (s.afterEvent b).sampleTag = s.sampleTag ∧
    (s.afterEvent b).metaTrack = s.metaTrack ∧ (s.afterEvent b).metaVehicle = s.metaVehicle ∧
    (s.afterEvent b).metaChar = s.metaChar ∧ (s.afterEvent b).metaManual = s.metaManual ∧
    (s.afterEvent b).latched = s.latched ∧ (s.afterEvent b).faceCh = s.faceCh ∧
    (s.afterEvent b).dirCh = s.dirCh ∧ (s.afterEvent b).trickCh = s.trickCh ∧
    (s.afterEvent b).frames = s.frames ∧ (s.afterEvent b).img = s.img ∧ (s.afterEvent b).crc = s.crc ∧
    (s.afterEvent b).env = { s.env with bus := b, engineWait := s.env.engineWait - 1 } :=
  ⟨rfl, rfl, rfl, rfl, rfl, rfl, rfl, rfl, rfl, rfl, rfl, rfl, rfl, rfl, rfl, rfl, rfl, rfl, rfl, rfl, rfl,
    rfl, rfl⟩

/-- Only the sample registers change. -/
@[simp] theorem withOperands_fields (o : Operands) (s : State) :
    (s.withOperands o).ctl = s.ctl ∧ (s.withOperands o).illegal = s.illegal ∧ (s.withOperands o).err = s.err ∧
    (s.withOperands o).errFields = s.errFields ∧ (s.withOperands o).errTag = s.errTag ∧
    (s.withOperands o).errRawLo = s.errRawLo ∧ (s.withOperands o).errRawHi = s.errRawHi ∧
    (s.withOperands o).errBytes = s.errBytes ∧ (s.withOperands o).sampleLo = o.lo ∧
    (s.withOperands o).sampleHi = o.hi ∧ (s.withOperands o).sampleTag = o.tag ∧
    (s.withOperands o).metaTrack = s.metaTrack ∧ (s.withOperands o).metaVehicle = s.metaVehicle ∧
    (s.withOperands o).metaChar = s.metaChar ∧ (s.withOperands o).metaManual = s.metaManual ∧
    (s.withOperands o).latched = s.latched ∧ (s.withOperands o).faceCh = s.faceCh ∧
    (s.withOperands o).dirCh = s.dirCh ∧ (s.withOperands o).trickCh = s.trickCh ∧
    (s.withOperands o).frames = s.frames ∧ (s.withOperands o).img = s.img ∧ (s.withOperands o).crc = s.crc ∧
    (s.withOperands o).env = s.env :=
  ⟨rfl, rfl, rfl, rfl, rfl, rfl, rfl, rfl, rfl, rfl, rfl, rfl, rfl, rfl, rfl, rfl, rfl, rfl, rfl, rfl, rfl,
    rfl, rfl⟩

/-- Only a channel changes. -/
@[simp] theorem setCh_fields (c : Chan) (ch : Channel) (s : State) :
    (s.setCh c ch).ctl = s.ctl ∧ (s.setCh c ch).illegal = s.illegal ∧ (s.setCh c ch).err = s.err ∧
    (s.setCh c ch).errFields = s.errFields ∧ (s.setCh c ch).errTag = s.errTag ∧
    (s.setCh c ch).errRawLo = s.errRawLo ∧ (s.setCh c ch).errRawHi = s.errRawHi ∧
    (s.setCh c ch).errBytes = s.errBytes ∧ (s.setCh c ch).sampleLo = s.sampleLo ∧
    (s.setCh c ch).sampleHi = s.sampleHi ∧ (s.setCh c ch).sampleTag = s.sampleTag ∧
    (s.setCh c ch).metaTrack = s.metaTrack ∧ (s.setCh c ch).metaVehicle = s.metaVehicle ∧
    (s.setCh c ch).metaChar = s.metaChar ∧ (s.setCh c ch).metaManual = s.metaManual ∧
    (s.setCh c ch).latched = s.latched ∧ (s.setCh c ch).frames = s.frames ∧ (s.setCh c ch).img = s.img ∧
    (s.setCh c ch).crc = s.crc ∧ (s.setCh c ch).env = s.env :=
  by cases c <;> exact ⟨rfl, rfl, rfl, rfl, rfl, rfl, rfl, rfl, rfl, rfl, rfl, rfl, rfl, rfl, rfl, rfl, rfl, rfl, rfl, rfl⟩

/-- Only a channel changes (R150). -/
@[simp] theorem rleStep_fields (c : Chan) (v : Byte) (s : State) :
    (rleStep c v s).ctl = s.ctl ∧ (rleStep c v s).illegal = s.illegal ∧ (rleStep c v s).err = s.err ∧
    (rleStep c v s).errFields = s.errFields ∧ (rleStep c v s).errTag = s.errTag ∧
    (rleStep c v s).errRawLo = s.errRawLo ∧ (rleStep c v s).errRawHi = s.errRawHi ∧
    (rleStep c v s).errBytes = s.errBytes ∧ (rleStep c v s).sampleLo = s.sampleLo ∧
    (rleStep c v s).sampleHi = s.sampleHi ∧ (rleStep c v s).sampleTag = s.sampleTag ∧
    (rleStep c v s).metaTrack = s.metaTrack ∧ (rleStep c v s).metaVehicle = s.metaVehicle ∧
    (rleStep c v s).metaChar = s.metaChar ∧ (rleStep c v s).metaManual = s.metaManual ∧
    (rleStep c v s).latched = s.latched ∧ (rleStep c v s).frames = s.frames ∧ (rleStep c v s).img = s.img ∧
    (rleStep c v s).crc = s.crc ∧ (rleStep c v s).env = s.env :=
  by cases c <;> exact ⟨rfl, rfl, rfl, rfl, rfl, rfl, rfl, rfl, rfl, rfl, rfl, rfl, rfl, rfl, rfl, rfl, rfl, rfl, rfl, rfl⟩

/-! RleStep on one channel writes that channel and no other (R150). -/

@[simp] theorem rleStep_face (v : Byte) (s : State) :
    (rleStep .face v s).faceCh = s.faceCh.rleStep 255 v ∧
    (rleStep .dir v s).faceCh = s.faceCh ∧ (rleStep .trick v s).faceCh = s.faceCh :=
  ⟨rfl, rfl, rfl⟩

@[simp] theorem rleStep_dir (v : Byte) (s : State) :
    (rleStep .dir v s).dirCh = s.dirCh.rleStep 255 v ∧
    (rleStep .face v s).dirCh = s.dirCh ∧ (rleStep .trick v s).dirCh = s.dirCh :=
  ⟨rfl, rfl, rfl⟩

@[simp] theorem rleStep_trick (v : Byte) (s : State) :
    (rleStep .trick v s).trickCh = s.trickCh.rleStep 255 v ∧
    (rleStep .face v s).trickCh = s.trickCh ∧ (rleStep .dir v s).trickCh = s.trickCh :=
  ⟨rfl, rfl, rfl⟩

/-- Only the channels and FRAMES change (R120). -/
@[simp] theorem acceptSample_fields (p : Sample) (s : State) :
    (acceptSample p s).ctl = s.ctl ∧ (acceptSample p s).illegal = s.illegal ∧ (acceptSample p s).err = s.err ∧
    (acceptSample p s).errFields = s.errFields ∧ (acceptSample p s).errTag = s.errTag ∧
    (acceptSample p s).errRawLo = s.errRawLo ∧ (acceptSample p s).errRawHi = s.errRawHi ∧
    (acceptSample p s).errBytes = s.errBytes ∧ (acceptSample p s).sampleLo = s.sampleLo ∧
    (acceptSample p s).sampleHi = s.sampleHi ∧ (acceptSample p s).sampleTag = s.sampleTag ∧
    (acceptSample p s).metaTrack = s.metaTrack ∧ (acceptSample p s).metaVehicle = s.metaVehicle ∧
    (acceptSample p s).metaChar = s.metaChar ∧ (acceptSample p s).metaManual = s.metaManual ∧
    (acceptSample p s).latched = s.latched ∧ (acceptSample p s).faceCh = s.faceCh.rleStep 255 (faceValue p) ∧
    (acceptSample p s).dirCh = s.dirCh.rleStep 255 (dirValue p) ∧
    (acceptSample p s).trickCh = s.trickCh.rleStep 255 (trickValue p) ∧
    (acceptSample p s).frames = sat32 (s.frames.toNat + 1) ∧ (acceptSample p s).img = s.img ∧
    (acceptSample p s).crc = s.crc ∧ (acceptSample p s).env = s.env :=
  by simp [acceptSample]

/-- Only an operand register changes (R67). -/
@[simp] theorem writeOperand_fields (r : Reg) (v : Word) (s : State) :
    (writeOperand r v s).ctl = s.ctl ∧ (writeOperand r v s).illegal = s.illegal ∧
    (writeOperand r v s).err = s.err ∧ (writeOperand r v s).errFields = s.errFields ∧
    (writeOperand r v s).errTag = s.errTag ∧ (writeOperand r v s).errRawLo = s.errRawLo ∧
    (writeOperand r v s).errRawHi = s.errRawHi ∧ (writeOperand r v s).errBytes = s.errBytes ∧
    (writeOperand r v s).latched = s.latched ∧ (writeOperand r v s).faceCh = s.faceCh ∧
    (writeOperand r v s).dirCh = s.dirCh ∧ (writeOperand r v s).trickCh = s.trickCh ∧
    (writeOperand r v s).frames = s.frames ∧ (writeOperand r v s).img = s.img ∧
    (writeOperand r v s).crc = s.crc ∧ (writeOperand r v s).env = s.env :=
  by cases r <;> exact ⟨rfl, rfl, rfl, rfl, rfl, rfl, rfl, rfl, rfl, rfl, rfl, rfl, rfl, rfl, rfl, rfl⟩

end Sys2Proof.Machine
end

