-- ==== Sys2Proof/Laws/Rle.lean ====
section
/-! SUPPORT. The run-length encoder: what a step and a seal do, the bounds they keep, the chunked maximal blocks
they yield, and the bytes of the entries. -/

namespace Sys2Proof.Machine

/-! ### One channel -/

@[simp] theorem maxRun_eq (c : Chan) : Config.maxRun c = 255 := by cases c <;> rfl

@[simp] theorem rleStep_ch (c : Chan) (v : Byte) (s : State) : (rleStep c v s).ch c = (s.ch c).rleStep 255 v := by
  cases c <;> rfl

theorem rleStep_ch_of_ne {c d : Chan} (h : c ≠ d) (v : Byte) (s : State) : (rleStep c v s).ch d = s.ch d := by
  cases c <;> cases d <;> first | rfl | exact absurd rfl h

theorem acceptSample_ch (p : Sample) (s : State) (c : Chan) :
    (acceptSample p s).ch c = (s.ch c).rleStep 255 (channelValue p c) := by
  cases c <;> simp [State.ch, channelValue]

@[simp] theorem sealChannels_ch (s : State) (c : Chan) : (sealChannels s).ch c = (s.ch c).closeRun := by
  cases c <;> rfl

/-- The open run, as it would be sealed. -/
theorem closeRun_sealed (ch : Channel) :
    ch.closeRun.sealed =
      ch.sealed ++ (if ch.curCnt = 0 then [] else [{ value := ch.curVal, count := ch.curCnt }]) := by
  unfold Channel.closeRun
  by_cases h : ch.curCnt = 0
  · simp [h]
  · rw [if_pos (Nat.pos_of_ne_zero h), if_neg h]

@[simp] theorem closeRun_curCnt (ch : Channel) : ch.closeRun.curCnt = 0 := by
  unfold Channel.closeRun
  by_cases h : ch.curCnt > 0
  · simp [h]
  · rw [if_neg h]; omega

@[simp] theorem closeRun_closeRun (ch : Channel) : ch.closeRun.closeRun = ch.closeRun := by
  have h := closeRun_curCnt ch
  generalize ch.closeRun = d at h
  exact if_neg (by omega)

/-- A sealed channel holds exactly its run count of entries, and sealing does not change the count (R31, R142). -/
@[simp] theorem closeRun_sealed_length (ch : Channel) : ch.closeRun.sealed.length = ch.nRuns := by
  rw [closeRun_sealed, Channel.nRuns]
  by_cases h : ch.curCnt = 0
  · simp [h]
  · rw [if_neg h, if_pos (Nat.pos_of_ne_zero h)]; simp

@[simp] theorem closeRun_nRuns (ch : Channel) : ch.closeRun.nRuns = ch.nRuns := by
  rw [Channel.nRuns, closeRun_sealed_length, closeRun_curCnt]; rfl

/-- The three cases of RleStep (R141). -/
theorem rleStep_cases {M : Nat} (v : Byte) (ch : Channel) :
    (ch.curCnt = 0 ∧ ch.rleStep M v = { sealed := ch.sealed, curVal := v, curCnt := 1 }) ∨
    (ch.curCnt ≠ 0 ∧ v = ch.curVal ∧ ch.curCnt < M ∧
      ch.rleStep M v = { sealed := ch.sealed, curVal := ch.curVal, curCnt := ch.curCnt + 1 }) ∨
    (ch.curCnt ≠ 0 ∧ ¬ (v = ch.curVal ∧ ch.curCnt < M) ∧
      ch.rleStep M v =
        { sealed := ch.sealed ++ [{ value := ch.curVal, count := ch.curCnt }], curVal := v, curCnt := 1 }) := by
  by_cases h0 : ch.curCnt = 0
  · exact .inl ⟨h0, if_pos h0⟩
  · by_cases h1 : v = ch.curVal ∧ ch.curCnt < M
    · exact .inr (.inl ⟨h0, h1.1, h1.2, (if_neg h0).trans (if_pos h1)⟩)
    · exact .inr (.inr ⟨h0, h1, (if_neg h0).trans (if_neg h1)⟩)

/-- What sealing gives after a step: the last run longer by one, or one more run of length 1. -/
theorem rleStep_closeRun {M : Nat} (v : Byte) (ch : Channel) :
    (ch.curCnt ≠ 0 ∧ v = ch.curVal ∧ ch.curCnt < M ∧
      ch.closeRun.sealed = ch.sealed ++ [{ value := v, count := ch.curCnt }] ∧
      (ch.rleStep M v).closeRun.sealed = ch.sealed ++ [{ value := v, count := ch.curCnt + 1 }]) ∨
    ((ch.curCnt = 0 ∨ v ≠ ch.curVal ∨ M ≤ ch.curCnt) ∧
      (ch.rleStep M v).closeRun.sealed = ch.closeRun.sealed ++ [{ value := v, count := 1 }]) := by
  rcases rleStep_cases (M := M) v ch with ⟨h0, he⟩ | ⟨h0, hv, hlt, he⟩ | ⟨h0, hn, he⟩
  · right
    refine ⟨.inl h0, ?_⟩
    rw [he, closeRun_sealed, closeRun_sealed, if_pos h0]; simp
  · left
    refine ⟨h0, hv, hlt, ?_, ?_⟩
    · rw [closeRun_sealed, if_neg h0, hv]
    · rw [he, closeRun_sealed, if_neg (Nat.succ_ne_zero _), hv]
  · right
    refine ⟨.inr (by by_cases hv : v = ch.curVal; · exact .inr (by_contra fun h => hn ⟨hv, by omega⟩)
                     · exact .inl hv), ?_⟩
    rw [he, closeRun_sealed, closeRun_sealed ch, if_neg h0]; simp

theorem expand_append (es fs : List Entry) : expand (es ++ fs) = expand es ++ expand fs := by
  simp [expand]

/-- A step adds its value to what the channel stands for (R144). -/
theorem rleStep_values (M : Nat) (v : Byte) (ch : Channel) :
    expand (ch.rleStep M v).closeRun.sealed = expand ch.closeRun.sealed ++ [v] := by
  rcases rleStep_closeRun (M := M) v ch with ⟨-, -, -, h1, h2⟩ | ⟨-, h⟩
  · rw [h1, h2, expand_append, expand_append]
    simp [expand, List.replicate_succ']
  · rw [h, expand_append]
    simp [expand]

/-- A step counts one value (R127). -/
theorem rleStep_total (M : Nat) (v : Byte) (ch : Channel) : (ch.rleStep M v).total = ch.total + 1 := by
  unfold Channel.total
  rcases rleStep_cases (M := M) v ch with ⟨h0, he⟩ | ⟨h0, hv, hlt, he⟩ | ⟨h0, hn, he⟩ <;> rw [he] <;> simp
  · omega
  · omega

theorem closeRun_total (ch : Channel) : ch.closeRun.total = ch.total := by
  unfold Channel.total
  rw [closeRun_sealed, closeRun_curCnt]
  by_cases h : ch.curCnt = 0 <;> simp [h]

/-- A step never lowers the run count, and a channel that has been stepped has an open run. -/
theorem rleStep_nRuns_le (M : Nat) (v : Byte) (ch : Channel) : ch.nRuns ≤ (ch.rleStep M v).nRuns := by
  rw [← closeRun_sealed_length, ← closeRun_sealed_length]
  rcases rleStep_closeRun (M := M) v ch with ⟨-, -, -, h1, h2⟩ | ⟨-, h⟩
  · rw [h1, h2]; simp
  · rw [h]; simp

theorem rleStep_curCnt_pos (M : Nat) (v : Byte) (ch : Channel) : 0 < (ch.rleStep M v).curCnt := by
  rcases rleStep_cases (M := M) v ch with ⟨-, he⟩ | ⟨-, -, -, he⟩ | ⟨-, -, he⟩ <;> rw [he] <;> simp

theorem rleStep_curCnt_le {M : Nat} (hM : 1 ≤ M) (v : Byte) {ch : Channel} (_h : ch.curCnt ≤ M) :
    (ch.rleStep M v).curCnt ≤ M := by
  rcases rleStep_cases (M := M) v ch with ⟨h0, he⟩ | ⟨h0, hv, hlt, he⟩ | ⟨h0, hn, he⟩ <;> rw [he] <;>
    simp <;> omega

/-! ### The bounds of a channel -/

theorem Good_empty (c : Chan) : Channel.empty.Good c := by
  refine ⟨Nat.zero_le _, ?_, ?_⟩ <;> simp [closeRun_sealed, Channel.empty]

/-- A step keeps a channel within its bounds, if a channel without an open run is empty (R143). -/
theorem Good_rleStep {c : Chan} {v : Byte} {ch : Channel} (h : ch.Good c) (hv : valueOk c v)
    (he : ch.curCnt = 0 → ch.sealed = []) : (ch.rleStep 255 v).Good c := by
  obtain ⟨h1, h2, h3⟩ := h
  simp only [maxRun_eq] at h1 h2 h3
  refine ⟨by simpa using rleStep_curCnt_le (by omega) v h1, ?_, ?_⟩ <;> simp only [maxRun_eq]
  · rcases rleStep_closeRun (M := 255) v ch with ⟨h0, hv', hlt, hs, hs'⟩ | ⟨-, hs'⟩
    · rw [hs] at h2
      rw [hs']
      intro e hm
      rcases List.mem_append.1 hm with hm | hm
      · exact h2 e (List.mem_append_left _ hm)
      · rw [List.mem_singleton] at hm
        subst hm
        exact ⟨by simp, by simp; omega, hv⟩
    · rw [hs']
      intro e hm
      rcases List.mem_append.1 hm with hm | hm
      · exact h2 e hm
      · rw [List.mem_singleton] at hm
        subst hm
        exact ⟨by simp, by simp, hv⟩
  · rcases rleStep_closeRun (M := 255) v ch with ⟨h0, hv', hlt, hs, hs'⟩ | ⟨hb, hs'⟩
    · rw [hs, List.isChain_append] at h3
      rw [hs', List.isChain_append]
      exact ⟨h3.1, by simp, fun x hx y hy => by
        simp at hy; subst hy
        exact h3.2.2 x hx ⟨v, ch.curCnt⟩ (by simp)⟩
    · rw [hs', List.isChain_append]
      refine ⟨h3, by simp, fun x hx y hy hxy => ?_⟩
      simp at hy; subst hy
      rw [closeRun_sealed] at hx
      by_cases h0 : ch.curCnt = 0
      · simp [he h0, h0] at hx
      · simp [h0] at hx
        subst hx
        simp at hxy ⊢
        rcases hb with hb | hb | hb
        · exact absurd hb h0
        · exact absurd hxy.symm hb
        · omega

theorem Good_closeRun {c : Chan} {ch : Channel} (h : ch.Good c) : ch.closeRun.Good c := by
  refine ⟨by simp, ?_, ?_⟩
  · rw [closeRun_closeRun]; exact h.2.1
  · rw [closeRun_closeRun]; exact h.2.2

/-- A channel within its bounds holds at most 255 values a run (R145). -/
theorem total_le_of_Good {c : Chan} {ch : Channel} (h : ch.Good c) : ch.total ≤ 255 * ch.nRuns := by
  have key : ∀ es : List Entry, (∀ e ∈ es, e.count ≤ 255) → (es.map Entry.count).sum ≤ 255 * es.length := by
    intro es
    induction es with
    | nil => simp
    | cons e es ih =>
      intro hes
      have := hes e (by simp)
      have := ih (fun e' he' => hes e' (by simp [he']))
      simp; omega
  have hk := key ch.closeRun.sealed fun e he => by simpa using (h.2.1 e he).2.1
  rw [closeRun_sealed_length] at hk
  have ht : ch.closeRun.total = (ch.closeRun.sealed.map Entry.count).sum := by
    rw [Channel.total, closeRun_curCnt]; rfl
  rw [← closeRun_total, ht]
  exact hk

/-! ### Chunked maximal blocks -/

/-- One more value at the end: the last block longer by one if it has that value, else a new block. -/
theorem blocks_append (vs : List Byte) (v : Byte) :
    (∃ pre n, blocks vs = pre ++ [(v, n)] ∧ blocks (vs ++ [v]) = pre ++ [(v, n + 1)]) ∨
    ((∀ pre n, blocks vs ≠ pre ++ [(v, n)]) ∧ blocks (vs ++ [v]) = blocks vs ++ [(v, 1)]) := by
  induction vs with
  | nil => right; simp [blocks]
  | cons u vs ih =>
    rcases ih with ⟨pre, n, h1, h2⟩ | ⟨h1, h2⟩
    · left
      cases pre with
      | nil =>
        simp only [List.nil_append] at h1 h2
        by_cases hu : u = v
        · exact ⟨[], n + 1, by simp [blocks, h1, hu], by simp [blocks, h2, hu]⟩
        · exact ⟨[(u, 1)], n, by simp [blocks, h1, hu], by simp [blocks, h2, hu]⟩
      | cons d pre =>
        obtain ⟨w, m⟩ := d
        simp only [List.cons_append] at h1 h2
        by_cases hu : u = w
        · exact ⟨(w, m + 1) :: pre, n, by simp [blocks, h1, hu], by simp [blocks, h2, hu]⟩
        · exact ⟨(u, 1) :: (w, m) :: pre, n, by simp [blocks, h1, hu], by simp [blocks, h2, hu]⟩
    · cases hb : blocks vs with
      | nil =>
        rw [hb] at h2
        simp only [List.nil_append] at h2
        by_cases hu : u = v
        · exact .inl ⟨[], 1, by simp [blocks, hb, hu], by simp [blocks, h2, hu]⟩
        · refine .inr ⟨fun pre n hp => ?_, by simp [blocks, hb, h2, hu]⟩
          simp only [blocks, hb] at hp
          cases pre with
          | nil => simp at hp; exact hu hp.1
          | cons d pre => simp at hp
      | cons d bs =>
        obtain ⟨w, m⟩ := d
        rw [hb] at h1 h2
        right
        by_cases hu : u = w
        · refine ⟨fun pre n hp => ?_, by simp [blocks, hb, h2, hu]⟩
          simp only [blocks, hb, if_pos hu] at hp
          cases pre with
          | nil =>
            simp at hp
            exact h1 [] m (by simp [hp.1.1, hp.2])
          | cons d pre =>
            simp at hp
            exact h1 ((w, m) :: pre) n (by simp [hp.2])
        · refine ⟨fun pre n hp => ?_, by simp [blocks, hb, h2, hu]⟩
          simp only [blocks, hb, if_neg hu] at hp
          cases pre with
          | nil => simp at hp
          | cons d pre =>
            simp at hp
            exact h1 pre n hp.2

/-- The state of an encoder that has been presented `vs` (R145): all full chunks sealed, the rest open. -/
theorem foldl_rleStep_state (vs : List Byte) :
    (vs = [] ∧ vs.foldl (fun ch v => ch.rleStep 255 v) Channel.empty = Channel.empty) ∨
    (∃ pre v n, blocks vs = pre ++ [(v, n + 1)] ∧
      vs.foldl (fun ch v => ch.rleStep 255 v) Channel.empty =
        { sealed := pre.flatMap blockEntries ++ List.replicate (n / 255) { value := v, count := 255 }
          curVal := v
          curCnt := n % 255 + 1 }) := by
  induction vs using List.reverseRecOn with
  | nil => exact .inl ⟨rfl, rfl⟩
  | append_singleton vs v ih =>
    right
    rw [List.foldl_append, List.foldl_cons, List.foldl_nil]
    rcases ih with ⟨rfl, h⟩ | ⟨pre, w, n, hb, h⟩
    · rw [h]
      exact ⟨[], v, 0, by simp [blocks], by simp [Channel.rleStep, Channel.empty]⟩
    · rw [h]
      rcases blocks_append vs v with ⟨pre', n', h1, h2⟩ | ⟨h1, h2⟩
      · rw [hb] at h1
        obtain ⟨rfl, hl⟩ := List.append_inj' h1 rfl
        simp only [List.cons.injEq, Prod.mk.injEq, and_true] at hl
        obtain ⟨rfl, rfl⟩ := hl
        refine ⟨pre, w, n + 1, h2, ?_⟩
        by_cases hlt : n % 255 + 1 < 255
        · have e1 : (n + 1) / 255 = n / 255 := by omega
          have e2 : (n + 1) % 255 = n % 255 + 1 := by omega
          simp [Channel.rleStep, hlt, e1, e2]
        · have e0 : n % 255 + 1 = 255 := by omega
          have e1 : (n + 1) / 255 = n / 255 + 1 := by omega
          have e2 : (n + 1) % 255 = 0 := by omega
          simp [Channel.rleStep, e0, e1, e2, List.replicate_succ']
      · have hv : v ≠ w := fun e => h1 pre (n + 1) (by rw [hb, e])
        refine ⟨pre ++ [(w, n + 1)], v, 0, by rw [h2, hb], ?_⟩
        have hn : List.replicate (n / 255) (⟨w, 255⟩ : Entry) ++ [⟨w, n % 255 + 1⟩] = blockEntries (w, n + 1) := by
          unfold blockEntries
          simp only
          by_cases hlt : n % 255 + 1 < 255
          · have e1 : (n + 1) / 255 = n / 255 := by omega
            have e2 : (n + 1) % 255 = n % 255 + 1 := by omega
            simp [e1, e2]
          · have e0 : n % 255 + 1 = 255 := by omega
            have e1 : (n + 1) / 255 = n / 255 + 1 := by omega
            have e2 : (n + 1) % 255 = 0 := by omega
            simp [e0, e1, e2, List.replicate_succ']
        simp [Channel.rleStep, hv, ← hn]

/-- The entries of an encoder are the chunked maximal blocks (R145). -/
theorem foldl_rleStep_sealed (vs : List Byte) :
    (vs.foldl (fun ch v => ch.rleStep 255 v) Channel.empty).closeRun.sealed = encodedRuns vs := by
  rw [closeRun_sealed]
  rcases foldl_rleStep_state vs with ⟨rfl, h⟩ | ⟨pre, v, n, hb, h⟩
  · rfl
  · rw [h, encodedRuns, hb]
    simp only [List.flatMap_append, Nat.succ_ne_zero, if_false, List.append_assoc]
    congr 1
    simp only [List.flatMap_cons, List.flatMap_nil, List.append_nil, blockEntries]
    by_cases hlt : n % 255 + 1 < 255
    · have e1 : (n + 1) / 255 = n / 255 := by omega
      have e2 : (n + 1) % 255 = n % 255 + 1 := by omega
      simp [e1, e2]
    · have e0 : n % 255 + 1 = 255 := by omega
      have e1 : (n + 1) / 255 = n / 255 + 1 := by omega
      have e2 : (n + 1) % 255 = 0 := by omega
      simp [e0, e1, e2, List.replicate_succ']

/-! ### Serialization -/

@[simp] theorem entryBytes_length (mode : OvfMode) (e : Entry) : (entryBytes mode e).length = 2 := by
  cases mode <;> rfl

@[simp] theorem serializeEntries_length (mode : OvfMode) (es : List Entry) :
    (serializeEntries mode es).length = 2 * es.length := by
  induction es with
  | nil => rfl
  | cons e es ih =>
    simp only [serializeEntries, List.flatMap_cons, List.length_append, entryBytes_length, List.length_cons] at *
    omega

theorem ovfNibble_of_le {n : Nat} (h : n ≤ 255) : ovfNibble n = 0 := if_neg (by omega)

theorem ovfNibble_lt (n : Nat) : ovfNibble n < 16 := by
  unfold ovfNibble
  split
  · exact Nat.lt_of_le_of_lt Nat.and_le_right (by omega)
  · omega

/-- The value byte of a trick entry (R147). -/
theorem nibble_value_toNat {v : Byte} (h : v.toNat ≤ 15) {k : Nat} (hk : k < 16) :
    ((v <<< 4) ||| BitVec.ofNat 8 k).toNat = 16 * v.toNat + k := by
  have hv : v = BitVec.ofNat 8 v.toNat := by simp
  rw [hv, nibbles_toNat (by omega) hk]
  simp

/-- Entries with counts in `1..255`, and trick codes in a nibble, read back from their bytes (R144). -/
theorem readEntries_serializeEntries (mode : OvfMode) (es : List Entry) (h : ∀ e ∈ es, e.count ≤ 255)
    (hn : mode = .nibble → ∀ e ∈ es, e.value.toNat ≤ 15) : readEntries mode (serializeEntries mode es) = es := by
  induction es with
  | nil => cases mode <;> rfl
  | cons e es ih =>
    have hc := h e (by simp)
    have ih := ih (fun e' he' => h e' (by simp [he'])) (fun hm e' he' => hn hm e' (by simp [he']))
    rw [serializeEntries, List.flatMap_cons]
    rw [serializeEntries] at ih
    cases mode with
    | none =>
      simp only [entryBytes, List.cons_append, List.nil_append, readEntries, ih]
      congr 1
      rw [show (BitVec.ofNat 8 e.count).toNat = e.count by simp; omega]
    | nibble =>
      have hv := hn rfl e (by simp)
      simp only [entryBytes, List.cons_append, List.nil_append, readEntries, ih]
      congr 1
      have e1 : ((e.value <<< 4) ||| BitVec.ofNat 8 (ovfNibble e.count)) >>> 4 = e.value := by
        apply BitVec.eq_of_toNat_eq
        rw [BitVec.toNat_ushiftRight, nibble_value_toNat hv (ovfNibble_lt _), Nat.shiftRight_eq_div_pow]
        have := ovfNibble_lt e.count
        omega
      rw [e1, show (BitVec.ofNat 8 (min e.count 255)).toNat = e.count by simp; omega]

/-- The section is two bytes an entry (R184). -/
theorem sectionBytes_length (s : State) :
    (sectionBytes s).length = 2 * (s.faceCh.sealed.length + s.dirCh.sealed.length + s.trickCh.sealed.length) := by
  simp [sectionBytes, serialize, State.ch]; omega

/-- The section that FINISH assembles is two bytes a run (R31, R184). -/
theorem sectionBytes_sealChannels_length (s : State) :
    (sectionBytes (sealChannels s)).length = 2 * s.totalRuns := by
  simp [sectionBytes_length, State.totalRuns]

end Sys2Proof.Machine
end

