-- ==== Sys2Proof/Laws/Step.lean ====
section
/-! SUPPORT. What a step can do, said once (`step_cases`), and what each command can do (`exec_cases`). -/

namespace Sys2Proof.Machine

/-! ### Turns -/

/-- The engine's turn comes only in FINISHING (R20b). -/
theorem engineTurn_ctl {s : State} (h : s.engineTurn = true) : s.ctl = .finishing := by
  simp [State.engineTurn] at h
  exact h.1

theorem engineTurn_false_of_ctl {s : State} (h : s.ctl ≠ .finishing) : s.engineTurn = false := by
  simp [State.engineTurn, h]

/-- On the engine's turn the step is the engine's (R181). -/
theorem step_engine {s : State} (h : s.engineTurn = true) : step s = .next (engineStep params s) := by
  simp [step, h]

/-- On the host's turn the step performs the oldest event (R71). -/
theorem step_event {s : State} {e : BusEvent} {rest : List BusEvent} (h : s.engineTurn = false)
    (hb : s.env.bus = e :: rest) : step s = performEvent params e rest (s.afterEvent rest) := by
  simp [step, h, hostStep, hb]

/-- With no event to come and no FINISH pending nothing happens. -/
theorem step_idle {s : State} (h : s.engineTurn = false) (hb : s.env.bus = []) : step s = .next s := by
  simp [step, h, hostStep, hb]

/-! ### Channels are no business of the bus -/

theorem ch_writeOperand (r : Reg) (v : Word) (s : State) (c : Chan) : (writeOperand r v s).ch c = s.ch c := by
  cases c <;> simp [State.ch]

theorem ch_afterEvent (rest : List BusEvent) (s : State) (c : Chan) : (s.afterEvent rest).ch c = s.ch c := by
  cases c <;> rfl

theorem ch_flagIllegal (s : State) (c : Chan) : (flagIllegal s).ch c = s.ch c := by cases c <;> rfl

/-! ### Commands -/

/-- Everything a command can do: reset the block, begin an encode, accept or reject a sample, hand over to the
engine, or only flag ILLEGAL (R104). -/
theorem exec_cases (i : Instr) (s : State) :
    (i = .reset ∧ exec i s = .next (resetBlock s)) ∨
    (i = .start ∧ s.ctl ≠ .finishing ∧ exec i s = .next (beginEncode params s)) ∨
    (i = .push ∧ s.ctl = .accept ∧ fieldCheck s.sample = 0 ∧ exec i s = .next (acceptSample s.sample s)) ∨
    (i = .push ∧ s.ctl = .accept ∧ fieldCheck s.sample ≠ 0 ∧
      exec i s = .next (rejectSample (fieldCheck s.sample) s)) ∨
    (i = .finish ∧ s.ctl = .accept ∧ exec i s = .next (requestFinish s)) ∨
    (i ≠ .reset ∧ legalIn i s.ctl = false ∧ exec i s = .next (flagIllegal s)) := by
  cases i with
  | reset => exact .inl ⟨rfl, rfl⟩
  | start =>
    by_cases h : s.ctl = .finishing
    · simp [exec, execStart, h, legalIn]
    · simp [exec, execStart, h]
  | push =>
    by_cases h : s.ctl = .accept
    · by_cases hf : fieldCheck s.sample = 0
      · refine .inr (.inr (.inl ⟨rfl, h, hf, ?_⟩))
        rw [exec, execPush, if_neg (not_not.2 h), if_neg (not_not.2 hf)]
      · refine .inr (.inr (.inr (.inl ⟨rfl, h, hf, ?_⟩)))
        rw [exec, execPush, if_neg (not_not.2 h), if_pos hf]
    · simp [exec, execPush, h, legalIn]
  | finish =>
    by_cases h : s.ctl = .accept <;> simp [exec, execFinish, h, legalIn]

/-- START, when it is legal, leaves ACCEPT with the metadata latched or ERROR with INVALID_METADATA; either
way the encode and the error registers were cleared first (R101). -/
theorem beginEncode_cases (P : Params) (s : State) :
    (s.metaBad P = 0 ∧
      beginEncode P s = { clearError (clearEncode s) with latched := s.metaOperands, ctl := .accept }) ∨
    (s.metaBad P ≠ 0 ∧
      beginEncode P s =
        raiseError { code := .invalidMetadata, fields := s.metaBad P } (clearError (clearEncode s))) := by
  by_cases h : s.metaBad P = 0
  · exact .inl ⟨h, if_neg (not_not.2 h)⟩
  · exact .inr ⟨h, if_pos h⟩

/-- The three ends of an engine step (R181). -/
theorem engineStep_cases (P : Params) (s : State) :
    (s.frames = 0 ∧ engineStep P s = raiseError { code := .emptyRecording } s) ∨
    (s.frames ≠ 0 ∧ (sectionBytes (sealChannels s)).length > P.cap ∧
      engineStep P s =
        raiseError { code := .inputSectionOverflow, bytes := sat32 (sectionBytes (sealChannels s)).length }
          (sealChannels s)) ∨
    (s.frames ≠ 0 ∧ (sectionBytes (sealChannels s)).length ≤ P.cap ∧
      engineStep P s =
        { sealChannels s with
          img := Memory.load 0 (imageBytes P (sealChannels s))
          crc := sectionCrc P (sealChannels s)
          ctl := .done }) := by
  by_cases h : s.frames = 0
  · exact .inl ⟨h, if_pos h⟩
  · by_cases hl : (sectionBytes (sealChannels s)).length > P.cap
    · exact .inr (.inl ⟨h, hl, (if_neg h).trans (if_pos hl)⟩)
    · exact .inr (.inr ⟨h, Nat.le_of_not_lt hl, (if_neg h).trans (if_neg hl)⟩)

/-! ### The step -/

/-- The command a host's write to CMD issues. -/
theorem commandIssued_write {s : State} {w : Word} {rest : List BusEvent} (h : s.engineTurn = false)
    (hb : s.env.bus = .write .word Reg.cmd.offset w :: rest) :
    s.commandIssued = (decode w).toOption := by
  simp [State.commandIssued, h, hb]

/-- A bus write does one of four things (R63, R67, R68, R103, R255). -/
theorem busWrite_cases (size : AccessSize) (off : Offset) (v : Word) (s : State) :
    (∃ i, size = .word ∧ off = Reg.cmd.offset ∧ decode v = .ok i ∧ busWrite size off v s = exec i s) ∨
    (∃ r : Reg, size = .word ∧ off = r.offset ∧ r.access = .readWrite ∧ s.ctl ≠ .finishing ∧
      busWrite size off v s = .next (writeOperand r v s)) ∨
    (¬ (size = .word ∧ off = Reg.cmd.offset ∧ ∃ i, decode v = .ok i) ∧
      busWrite size off v s = .next (flagIllegal s)) := by
  unfold busWrite
  by_cases ha : accessOk size off = true
  · obtain ⟨rfl, -⟩ := accessOk_iff.1 ha
    rw [if_pos ha]
    by_cases hc : off = Reg.cmd.offset
    · rw [if_pos hc]
      unfold command
      cases hd : decode v with
      | ok i => exact .inl ⟨i, rfl, hc, rfl, rfl⟩
      | error e => exact .inr (.inr ⟨by simp, rfl⟩)
    · rw [if_neg hc]
      unfold writeElsewhere
      by_cases hf : s.ctl = .finishing
      · simp [hf, hc]
      · rw [if_neg hf]
        cases hr : regAt off with
        | none => exact .inr (.inr ⟨by simp [hc], rfl⟩)
        | some r =>
          by_cases hrw : r.access = .readWrite
          · exact .inr (.inl ⟨r, rfl, regAt_eq_some_iff.1 hr, hrw, hf, by simp [hrw]⟩)
          · exact .inr (.inr ⟨by simp [hc], by simp [hrw]⟩)
  · rw [if_neg ha]
    refine .inr (.inr ⟨?_, rfl⟩)
    rintro ⟨rfl, rfl, -⟩
    exact ha (accessOk_offset .cmd)

/-- The BUSY bit of a polled STATUS (R35). -/
theorem status_getLsbD_busy (P : Params) (s : State) : (s.status P).getLsbD 3 = s.busy := by
  unfold State.status
  rw [BitVec.getLsbD_append, if_neg (by decide), BitVec.getLsbD_append, if_pos (by decide)]
  simp

/-- A poll changes the read data, and the coming events if BUSY read 1 (R72). -/
theorem pollStatus_eq (P : Params) (rest : List BusEvent) (s : State) :
    pollStatus P rest s =
      { s with env := { s.env with
          rdata := s.status P
          bus := if s.ctl = .finishing then .wait :: rest else s.env.bus } } := by
  have hv : busRead P .word Reg.status.offset s = s.status P := rfl
  unfold pollStatus
  simp only [hv, status_getLsbD_busy, State.busy]
  by_cases h : s.ctl = .finishing <;> simp [h, State.withRdata, State.withBus]

/-- What a step can do: the engine's step, nothing, a command, a reset, a write to an operand register, the
ILLEGAL flag, or a change of the model's own fields only (R20, R71). -/
inductive StepCase (s t : State) : Prop where
  /-- The engine performs the pending FINISH. -/
  | engine (turn : s.engineTurn = true) (issued : s.commandIssued = none) (noReset : s.resetNext = false)
      (eq : t = engineStep params s)
  /-- The host issues a command. -/
  | command (i : Instr) (rest : List BusEvent) (turn : s.engineTurn = false)
      (issued : s.commandIssued = some i) (reset : s.resetNext = (i == .reset))
      (eq : exec i (s.afterEvent rest) = .next t)
  /-- The reset input. -/
  | hardwareReset (rest : List BusEvent) (turn : s.engineTurn = false) (issued : s.commandIssued = none)
      (reset : s.resetNext = true) (eq : t = resetBlock (s.afterEvent rest))
  /-- A write to an operand register. -/
  | operand (r : Reg) (v : Word) (rest : List BusEvent) (turn : s.engineTurn = false)
      (event : s.env.bus = .write .word r.offset v :: rest) (rw : r.access = .readWrite)
      (ctl : s.ctl ≠ .finishing) (issued : s.commandIssued = none) (noReset : s.resetNext = false)
      (eq : t = writeOperand r v (s.afterEvent rest))
  /-- A write that is turned away, or a reserved word. -/
  | illegal (rest : List BusEvent) (turn : s.engineTurn = false) (issued : s.commandIssued = none)
      (noReset : s.resetNext = false) (eq : t = flagIllegal (s.afterEvent rest))
  /-- A read, a poll, or nothing at all. -/
  | outside (env : Env) (turn : s.engineTurn = false) (issued : s.commandIssued = none)
      (noReset : s.resetNext = false) (eq : t = { s with env := env })

theorem resetNext_of_not_issued {s : State} (h : s.commandIssued = none) :
    s.resetNext = s.hardwareResetNext := by
  simp [State.resetNext, h]

theorem hardwareResetNext_of_bus {s : State} {e : BusEvent} {rest : List BusEvent} (hb : s.env.bus = e :: rest)
    (he : e ≠ .hardwareReset) : s.hardwareResetNext = false := by
  simp [State.hardwareResetNext, hb, he]

/-- The inversion of the step: cite it instead of unfolding `step`. -/
theorem step_cases {s t : State} (h : step s = .next t) : StepCase s t := by
  cases ht : s.engineTurn with
  | true =>
    rw [step_engine ht] at h
    cases h
    have hi : s.commandIssued = none := by simp [State.commandIssued, ht]
    exact .engine ht hi (by rw [resetNext_of_not_issued hi]; simp [State.hardwareResetNext, ht]) rfl
  | false =>
    cases hb : s.env.bus with
    | nil =>
      rw [step_idle ht hb] at h
      cases h
      have hi : s.commandIssued = none := by simp [State.commandIssued, hb]
      exact .outside s.env ht hi (by rw [resetNext_of_not_issued hi]; simp [State.hardwareResetNext, hb]) rfl
    | cons e rest =>
      rw [step_event ht hb] at h
      cases e with
      | write size off v =>
        have hr : s.hardwareResetNext = false := hardwareResetNext_of_bus hb (by simp)
        simp only [performEvent] at h
        obtain ⟨i, rfl, rfl, hd, he⟩ | ⟨r, rfl, rfl, hrw, hf, he⟩ | ⟨hn, he⟩ :=
          busWrite_cases size off v (s.afterEvent rest)
        · rw [he] at h
          have hi : s.commandIssued = some i := by rw [commandIssued_write ht hb, hd]; rfl
          exact .command i rest ht hi (by rw [State.resetNext, hi, hr]; cases i <;> rfl) h
        · rw [he] at h
          cases h
          have hne : r.offset ≠ Reg.cmd.offset := by cases r <;> first | decide | cases hrw
          have hi : s.commandIssued = none := by simp [State.commandIssued, hb, hne]
          exact .operand r v rest ht hb hrw (by simpa using hf) hi ((resetNext_of_not_issued hi).trans hr) rfl
        · rw [he] at h
          cases h
          have hi : s.commandIssued = none := by
            cases size with
            | word =>
              simp only [State.commandIssued, ht, hb]
              by_cases hc : off = Reg.cmd.offset
              · cases hd : decode v with
                | ok i => exact absurd ⟨rfl, hc, i, hd⟩ hn
                | error e => simp [hc, Except.toOption]
              · simp [hc]
            | byte | half | wider => simp [State.commandIssued, hb]
          exact .illegal rest ht hi ((resetNext_of_not_issued hi).trans hr) rfl
      | read size off =>
        cases h
        have hi : s.commandIssued = none := by simp [State.commandIssued, hb]
        exact .outside _ ht hi ((resetNext_of_not_issued hi).trans (hardwareResetNext_of_bus hb (by simp))) rfl
      | wait =>
        simp only [performEvent, pollStatus_eq] at h
        cases h
        have hi : s.commandIssued = none := by simp [State.commandIssued, hb]
        exact .outside _ ht hi ((resetNext_of_not_issued hi).trans (hardwareResetNext_of_bus hb (by simp))) rfl
      | hardwareReset =>
        cases h
        have hi : s.commandIssued = none := by simp [State.commandIssued, hb]
        exact .hardwareReset rest ht hi
          ((resetNext_of_not_issued hi).trans (by simp [State.hardwareResetNext, ht, hb])) rfl

/-- Every command answers a next state. -/
theorem exec_next (i : Instr) (s : State) : ∃ t, exec i s = .next t := by
  rcases exec_cases i s with ⟨-, h⟩ | ⟨-, -, h⟩ | ⟨-, -, -, h⟩ | ⟨-, -, -, h⟩ | ⟨-, -, h⟩ | ⟨-, -, h⟩ <;>
    exact ⟨_, h⟩

/-- Every step answers a next state. -/
theorem step_next (s : State) : ∃ t, step s = .next t := by
  cases ht : s.engineTurn with
  | true => exact ⟨_, step_engine ht⟩
  | false =>
    cases hb : s.env.bus with
    | nil => exact ⟨_, step_idle ht hb⟩
    | cons e rest =>
      rw [step_event ht hb]
      cases e with
      | write size off v =>
        rcases busWrite_cases size off v (s.afterEvent rest) with
          ⟨i, -, -, -, he⟩ | ⟨r, -, -, -, -, he⟩ | ⟨-, he⟩
        · simp only [performEvent, he]; exact exec_next _ _
        · simp only [performEvent, he]; exact ⟨_, rfl⟩
        · simp only [performEvent, he]; exact ⟨_, rfl⟩
      | read size off => exact ⟨_, rfl⟩
      | wait => exact ⟨_, rfl⟩
      | hardwareReset => exact ⟨_, rfl⟩

/-! ### Runs -/

/-- A run of `n + 1` steps is a step and a run of `n`. -/
theorem run_succ (M : Host.Core) (n : Nat) {s t : M.State} (h : M.step s = .next t) :
    M.run (n + 1) s = M.run n t := by
  simp [Host.Core.run, h]

end Sys2Proof.Machine
end

