-- ==== Sys2Proof/Laws/Encode.lean ====
section
/-! SUPPORT. The header, the regions of the image, the engine's step, the pushes of an encode, and when an encode
succeeds. -/

namespace Sys2Proof.Machine

/-! ### The header -/

@[simp] theorem headerBuild_length (P : Params) (m : RaceMeta) : (headerBuild P m).length = 0x88 := by
  simp [headerBuild, hdrSize]

theorem headerBuild_getD (P : Params) (m : RaceMeta) {i : Nat} (h : i < 0x88) :
    (headerBuild P m).getD i 0 = headerByte P m i := by
  simp [headerBuild, hdrSize, List.getD_eq_getElem?_getD, h]

/-- A six-bit field in bits 7:2 of a byte, with two more bits below it (R161, R162). -/
theorem shifted_field_toNat (v : BitVec 6) (k : BitVec 2) :
    ((v.setWidth 8 <<< 2 : Byte) ||| k.setWidth 8).toNat = 4 * v.toNat + k.toNat := by
  revert v k; decide +revert

/-! ### The image -/

theorem padSection_length {P : Params} {sec : List Byte} (h : sec.length ≤ P.cap) :
    (padSection P sec).length = P.cap := by
  simp [padSection]; omega

@[simp] theorem inputHeader_length (s : State) : (inputHeader s).length = 6 := rfl

theorem imageBytes_length {P : Params} {s : State} (h : (sectionBytes s).length ≤ P.cap) :
    (imageBytes P s).length = 0x92 + P.cap := by
  simp [imageBytes, padSection_length h]; omega

theorem getD_append_left {α : Type} {xs ys : List α} {i : Nat} (d : α) (h : i < xs.length) :
    (xs ++ ys).getD i d = xs.getD i d := by
  simp [List.getD_eq_getElem?_getD, List.getElem?_append_left h]

theorem getD_append_right {α : Type} {xs ys : List α} {i : Nat} (d : α) (h : xs.length ≤ i) :
    (xs ++ ys).getD i d = ys.getD (i - xs.length) d := by
  simp [List.getD_eq_getElem?_getD, List.getElem?_append_right h]

theorem imageBytes_header {P : Params} {s : State} {i : Nat} (h : i < 0x88) :
    (imageBytes P s).getD i 0 = (headerBuild P s.latched).getD i 0 := by
  rw [imageBytes, List.append_assoc, List.append_assoc, getD_append_left _ (by simpa using h)]

theorem imageBytes_counts {P : Params} {s : State} {i : Nat} (h : i < 6) :
    (imageBytes P s).getD (0x88 + i) 0 = (inputHeader s).getD i 0 := by
  rw [imageBytes, List.append_assoc, List.append_assoc, getD_append_right _ (by simp), headerBuild_length,
    Nat.add_sub_cancel_left, getD_append_left _ (by simpa using h)]

theorem imageBytes_section {P : Params} {s : State} {i : Nat} (hl : (sectionBytes s).length ≤ P.cap)
    (h : i < P.cap) : (imageBytes P s).getD (0x8E + i) 0 = (padSection P (sectionBytes s)).getD i 0 := by
  have e : headerBuild P s.latched ++ inputHeader s ++ padSection P (sectionBytes s) ++ be32 (sectionCrc P s) =
      (headerBuild P s.latched ++ inputHeader s) ++ (padSection P (sectionBytes s) ++ be32 (sectionCrc P s)) := by
    simp
  rw [imageBytes, e, getD_append_right _ (by simp),
    show (headerBuild P s.latched ++ inputHeader s).length = 0x8E by simp, Nat.add_sub_cancel_left,
    getD_append_left _ (by rw [padSection_length hl]; exact h)]

theorem imageBytes_crc {P : Params} {s : State} {i : Nat} (hl : (sectionBytes s).length ≤ P.cap) :
    (imageBytes P s).getD (0x8E + P.cap + i) 0 = (be32 (sectionCrc P s)).getD i 0 := by
  rw [imageBytes, getD_append_right _ (by simp [padSection_length hl]; omega)]
  rw [show (headerBuild P s.latched ++ inputHeader s ++ padSection P (sectionBytes s)).length = 0x8E + P.cap by
    simp [padSection_length hl]; omega, Nat.add_sub_cancel_left]

theorem getD_of_length_le {α : Type} {xs : List α} {i : Nat} (d : α) (h : xs.length ≤ i) : xs.getD i d = d := by
  simp [List.getD_eq_getElem?_getD, h]

/-- The image depends on the latched metadata and the sealed entries only (R194). -/
theorem imageBytes_congr {P : Params} {s t : State} (hm : s.latched = t.latched)
    (hc : ∀ c, (s.ch c).sealed = (t.ch c).sealed) :
    imageBytes P s = imageBytes P t ∧ sectionCrc P s = sectionCrc P t := by
  have hF := hc .face; have hD := hc .dir; have hT := hc .trick
  simp only [State.ch] at hF hD hT
  have hs : sectionBytes s = sectionBytes t := by
    simp [sectionBytes, serialize, State.ch, hF, hD, hT]
  simp [imageBytes, sectionCrc, inputHeader, hs, hm, hF, hD, hT]

/-! ### Engine steps -/

/-- The engine changes the channels by sealing them, or not at all, and leaves what is not output or error. -/
theorem engineStep_frame (P : Params) (s : State) :
    (engineStep P s).illegal = s.illegal ∧ (engineStep P s).latched = s.latched ∧
    (engineStep P s).frames = s.frames ∧ (engineStep P s).env = s.env ∧
    (engineStep P s).sampleLo = s.sampleLo ∧ (engineStep P s).sampleHi = s.sampleHi ∧
    (engineStep P s).sampleTag = s.sampleTag ∧ (engineStep P s).metaTrack = s.metaTrack ∧
    (engineStep P s).metaVehicle = s.metaVehicle ∧ (engineStep P s).metaChar = s.metaChar ∧
    (engineStep P s).metaManual = s.metaManual ∧
    ((engineStep P s).ctl = .done ∨ (engineStep P s).ctl = .error) ∧
    (∀ c, ((engineStep P s).ch c).closeRun = (s.ch c).closeRun) ∧
    (∀ c, ((engineStep P s).ch c).nRuns = (s.ch c).nRuns) := by
  rcases engineStep_cases P s with ⟨-, h⟩ | ⟨-, -, h⟩ | ⟨-, -, h⟩ <;> rw [h] <;>
    refine ⟨rfl, rfl, rfl, rfl, rfl, rfl, rfl, rfl, rfl, rfl, rfl, ?_, ?_, ?_⟩
  · exact .inr rfl
  · intro c; cases c <;> rfl
  · intro c; cases c <;> rfl
  · exact .inr rfl
  · intro c; cases c <;> exact closeRun_closeRun _
  · intro c; cases c <;> exact closeRun_nRuns _
  · exact .inl rfl
  · intro c; cases c <;> exact closeRun_closeRun _
  · intro c; cases c <;> exact closeRun_nRuns _

/-! ### Pushes and whole encodes -/

/-- A valid PUSH in ACCEPT (R120). -/
theorem exec_push_valid {s : State} {o : Operands} (h : s.ctl = .accept) (ho : o.valid) :
    exec .push (s.withOperands o) = .next (acceptSample o.sample (s.withOperands o)) := by
  have e1 : (s.withOperands o).ctl = .accept := h
  have e2 : (s.withOperands o).sample = o.sample := rfl
  rw [exec, execPush, if_neg (not_not.2 e1), e2, if_neg (not_not.2 (show fieldCheck o.sample = 0 from ho))]

/-- What a list of valid pushes leaves: every channel folded over its values, the samples counted, and nothing
else but the sample registers changed (R127). -/
theorem pushAll_valid {s : State} {os : List Operands} (h : s.ctl = .accept) (ho : ∀ o ∈ os, o.valid) :
    ∃ t, pushAll os s = .next t ∧ t.ctl = .accept ∧ t.latched = s.latched ∧ t.img = s.img ∧ t.crc = s.crc ∧
      t.err = s.err ∧ t.illegal = s.illegal ∧ t.env = s.env ∧
      t.frames.toNat = min (s.frames.toNat + os.length) 0xFFFFFFFF ∧
      ∀ c, t.ch c = (channelInput c os).foldl (fun ch v => ch.rleStep 255 v) (s.ch c) := by
  induction os generalizing s with
  | nil =>
    have := s.frames.isLt
    exact ⟨s, rfl, h, rfl, rfl, rfl, rfl, rfl, rfl, by simp; omega, fun c => rfl⟩
  | cons o os ih =>
    have hv : o.valid := ho o (by simp)
    obtain ⟨t, h1, h2, h3, h4, h5, h6, h7, h8, h9, h10⟩ :=
      ih (s := acceptSample o.sample (s.withOperands o)) (by simpa using h) (fun o' h' => ho o' (by simp [h']))
    refine ⟨t, ?_, h2, by simpa using h3, by simpa using h4, by simpa using h5, by simpa using h6,
      by simpa using h7, by simpa using h8, ?_, ?_⟩
    · rw [pushAll, exec_push_valid h hv]; exact h1
    · rw [h9]
      simp only [acceptSample_fields, withOperands_fields, sat32_toNat, List.length_cons]
      omega
    · intro c
      rw [h10 c, acceptSample_ch]
      cases c <;> rfl

/-! ### When an encode succeeds -/

/-- An engine step succeeds exactly if a sample was accepted and the entries fit (R182, R185). -/
theorem engineStep_done_iff (P : Params) (s : State) :
    (engineStep P s).ctl = .done ↔ s.frames ≠ 0 ∧ 2 * s.totalRuns ≤ P.cap := by
  have hl : (sectionBytes (sealChannels s)).length = 2 * s.totalRuns := sectionBytes_sealChannels_length s
  rcases engineStep_cases P s with ⟨hf, h⟩ | ⟨-, hc, h⟩ | ⟨hf, hc, h⟩ <;> rw [h]
  · exact iff_of_false (fun e => by cases e) (fun e => e.1 hf)
  · exact iff_of_false (fun e => by cases e) (fun e => by omega)
  · exact iff_of_true rfl ⟨hf, by omega⟩

/-- Outside ACCEPT pushes only flag ILLEGAL (R104). -/
theorem pushAll_of_not_accept (os : List Operands) {s t : State} (h : s.ctl ≠ .accept)
    (ht : pushAll os s = .next t) : t.ctl = s.ctl := by
  induction os generalizing s with
  | nil => cases ht; rfl
  | cons o os ih =>
    have hc : (s.withOperands o).ctl ≠ .accept := h
    rw [pushAll, exec, execPush, if_pos hc] at ht
    exact ih (s := flagIllegal (s.withOperands o)) hc ht

/-- Pushes from ACCEPT were all valid and end in ACCEPT, or one was malformed and ERROR stands (R122, R225). -/
theorem pushAll_cases (os : List Operands) {s t : State} (h : s.ctl = .accept) (ht : pushAll os s = .next t) :
    (t.ctl = .accept ∧ ∀ o ∈ os, o.valid) ∨ t.ctl = .error := by
  induction os generalizing s with
  | nil => cases ht; exact .inl ⟨h, by simp⟩
  | cons o os ih =>
    by_cases hv : o.valid
    · rw [pushAll, exec_push_valid h hv] at ht
      simpa [hv] using ih (s := acceptSample o.sample (s.withOperands o)) (by simpa using h) ht
    · have h1 : (s.withOperands o).ctl = .accept := h
      have hf : fieldCheck (s.withOperands o).sample ≠ 0 := hv
      rw [pushAll, exec, execPush, if_neg (not_not.2 h1), if_pos hf] at ht
      exact .inr ((pushAll_of_not_accept os (by simp) ht).trans (by simp))

/-- Pushes always complete. -/
theorem pushAll_next (os : List Operands) (s : State) : ∃ t, pushAll os s = .next t := by
  induction os generalizing s with
  | nil => exact ⟨s, rfl⟩
  | cons o os ih =>
    obtain ⟨u, hu⟩ := exec_next .push (s.withOperands o)
    rw [pushAll, hu]
    exact ih u

/-- An encode that ends in DONE began with legal metadata and pushed only valid samples (R101, R104, R225). -/
theorem encodeRun_done {os : List Operands} {s t : State} (hs : s.ctl ≠ .finishing)
    (h : encodeRun os s = .next t) (ht : t.ctl = .done) : s.metaLegal ∧ ∀ o ∈ os, o.valid := by
  obtain ⟨u, hu⟩ := pushAll_next os (beginEncode params s)
  rw [encodeRun, exec, execStart, if_neg hs] at h
  simp only [andThen, hu] at h
  have hne : u.ctl ≠ .error := by
    intro hu'
    have hc : u.ctl ≠ .accept := by rw [hu']; decide
    rw [exec, execFinish, if_pos hc] at h
    simp only [engineSettles, flagIllegal_fields, hu'] at h
    cases h
    simp [hu'] at ht
  rcases beginEncode_cases params s with ⟨hb, he⟩ | ⟨-, he⟩
  · have ha : (beginEncode params s).ctl = .accept := by rw [he]
    obtain ⟨-, hv⟩ := (pushAll_cases os ha hu).resolve_right hne
    exact ⟨(metaBad_eq_zero_iff s).1 hb, hv⟩
  · exact absurd ((pushAll_of_not_accept os (by rw [he]; simp) hu).trans (by rw [he]; rfl)) hne
/-- A legal START (R101). -/
theorem exec_start_legal {s : State} (hs : s.ctl ≠ .finishing) (hm : s.metaLegal) :
    exec .start s = .next { clearError (clearEncode s) with latched := s.metaOperands, ctl := .accept } := by
  rw [exec, execStart, if_neg hs]
  rcases beginEncode_cases params s with ⟨-, he⟩ | ⟨hb, -⟩
  · rw [he]
  · exact absurd ((metaBad_eq_zero_iff s).2 hm) hb

/-- What an encode of valid samples under legal metadata hands to the engine (R127, R145, R180). -/
theorem encodeRun_valid {os : List Operands} {s : State} (hs : s.ctl ≠ .finishing) (hm : s.metaLegal)
    (ho : ∀ o ∈ os, o.valid) :
    ∃ u, encodeRun os s = .next (engineStep params u) ∧ u.latched = s.metaOperands ∧ u.img = Memory.clear ∧
      u.crc = 0 ∧ u.err = .none ∧ u.frames.toNat = min os.length 0xFFFFFFFF ∧
      ∀ c, (u.ch c).closeRun.sealed = encodedRuns (channelInput c os) := by
  obtain ⟨b, hb, h1, h2, h3, h4, h5, -, -, h8, h9⟩ := pushAll_valid
    (s := { clearError (clearEncode s) with latched := s.metaOperands, ctl := .accept }) rfl ho
  have hf : exec .finish b = .next (requestFinish b) := by rw [exec, execFinish, if_neg (not_not.2 h1)]
  refine ⟨requestFinish b, ?_, h2, h3, h4, h5, ?_, fun c => ?_⟩
  · rw [encodeRun, exec_start_legal hs hm]
    simp only [andThen, hb, hf]
    rfl
  · rw [show (requestFinish b).frames = b.frames from rfl, h8]
    simp
  · have hc : (requestFinish b).ch c = b.ch c := by cases c <;> rfl
    rw [hc, h9 c, ← foldl_rleStep_sealed]
    cases c <;> rfl

end Sys2Proof.Machine
end

