-- ==== Sys2Proof/Laws/PerInstr.lean ====
section
/-! SUPPORT. The statements made for each command as syntax: its word and its table word read back as it. -/

namespace Sys2Proof.Laws.RoundTrip

/-- The command is well formed, its word decodes to it, and so does its row of the opcode table (R80, R81). -/
def Statement (i : Instr) : Prop :=
  i.wf = true ∧ decode (encode i) = .ok i ∧ decodeTableWord 32 (encode i).toNat = some i

theorem reset : Statement .reset := ⟨rfl, decode_encode _, by decide⟩

theorem start : Statement .start := ⟨rfl, decode_encode _, by decide⟩

theorem push : Statement .push := ⟨rfl, decode_encode _, by decide⟩

theorem finish : Statement .finish := ⟨rfl, decode_encode _, by decide⟩

end Sys2Proof.Laws.RoundTrip
end

