-- ==== Sys2Proof/Tests/Slice0.lean ====
section
/-! SUPPORT. Tests of the model.  Every expected value is the spec's own: spec/95_test_vectors.md by the name of
the vector, or a rule's own example. -/

namespace Sys2Proof.Machine.Tests

/-! ### Small states -/

/-- Parameters with the vectors' `CAP = 16`; the magic bytes are arbitrary (R6). -/
def p16 : Params := { cap := 16, magic := #v[0xA0, 0xB1, 0xC2, 0xD3], charSplit := .hi2, driftBit := 2 }

/-- Just after START with metadata 0. -/
def accepting : State := { State.reset with ctl := .accept }

/-- The host about to perform `e`. -/
def facing (e : BusEvent) (s : State) : State := s.withBus [e]

/-- The META registers set. -/
def withMeta (t v c m : Word) (s : State) : State :=
  { s with metaTrack := t, metaVehicle := v, metaChar := c, metaManual := m }

/-- The state a command leaves. -/
def after (i : Instr) (s : State) : State :=
  match exec i s with
  | .next t => t
  | .fault _ => s
  | .refused _ => s

/-- V-S5's sample (1, 0, 1, -7, 7, 4) with tag 1. -/
def sampleS5 : Operands := { lo := 0xF9010001, hi := 0x0407, tag := 1 }

/-- V-S15's sample (-1, 2, 1, 8, -8, 5) with tag 9. -/
def sampleS15 : Operands := { lo := 0x080102FF, hi := 0x05F8, tag := 9 }

/-- P1 up to its FINISH: metadata (0x2A, 0x11, 0x25, 0) latched and one frame pushed. -/
def onePushed : State :=
  { after .push (accepting.withOperands sampleS5) with
    latched := { track := 0x2A, vehicle := 0x11, character := 0x25, manual := 0 } }

/-- P1 with its FINISH performed and the engine next to move. -/
def oneFinishing : State := { onePushed with ctl := .finishing }

/-! ### Words (R80, R81; 30_encoding.md) -/

/-- OP = 0x01, ZERO = 0: the bits of RESET's word from bit 31 down. -/
theorem test_decode_reset : decode 0b00000000000000000000000000000001 = .ok .reset := by decide

/-- OP = 0x02. -/
theorem test_decode_start : decode 0b00000000000000000000000000000010 = .ok .start := by decide

/-- OP = 0x03. -/
theorem test_decode_push : decode 0b00000000000000000000000000000011 = .ok .push := by decide

/-- OP = 0x04. -/
theorem test_decode_finish : decode 0b00000000000000000000000000000100 = .ok .finish := by decide

/-- R82, R103: the words 0 and 0x103 are reserved; so are OP 5 and 0xFF. -/
theorem test_decode_reserved :
    decode 0x00000000 = .error (.reservedOp 0) ∧ decode 0x00000005 = .error (.reservedOp 5) ∧
    decode 0x000000FF = .error (.reservedOp 0xFF) ∧ decode 0x00000103 = .error (.zeroFieldSet 1) ∧
    decode 0x80000001 = .error (.zeroFieldSet 0x800000) := by decide

/-- The opcode table's four rows, and a table word of a width the table does not have. -/
theorem test_decodeTableWord :
    [1, 2, 3, 4, 5].map (decodeTableWord 32) = [some .reset, some .start, some .push, some .finish, none] ∧
    decodeTableWord 40 1 = none ∧ decodeTableWord 32 (2 ^ 32 + 1) = none := by decide

/-! ### Well-formedness: one ill-formed term for each check -/

/-- R62, R63: each size but the word, and each misalignment, is refused, for writes and for reads. -/
theorem test_wf_access :
    (BusEvent.write .byte 0x000 1).wf = false ∧ (BusEvent.write .half 0x000 1).wf = false ∧
    (BusEvent.write .wider 0x000 1).wf = false ∧ (BusEvent.write .word 0x001 1).wf = false ∧
    (BusEvent.read .byte 0x004).wf = false ∧ (BusEvent.read .half 0x004).wf = false ∧
    (BusEvent.read .wider 0x004).wf = false ∧ (BusEvent.read .word 0x006).wf = false ∧
    (BusEvent.write .word 0x000 1).wf = true ∧ (BusEvent.read .word 0x3FFFC).wf = true := by decide

/-- R83: each field of a record has to fit a two's-complement byte. -/
theorem test_wf_record :
    (Record.wf { a := -128, b := 127, item := -128, x := 127, y := -128, trick := 127, line := 1 }) = true ∧
    (Record.wf { a := 128, b := 0, item := 0, x := 0, y := 0, trick := 0, line := 1 }) = false ∧
    (Record.wf { a := 0, b := -129, item := 0, x := 0, y := 0, trick := 0, line := 1 }) = false ∧
    (Record.wf { a := 0, b := 0, item := 300, x := 0, y := 0, trick := 0, line := 1 }) = false ∧
    (Record.wf { a := 0, b := 0, item := 0, x := -129, y := 0, trick := 0, line := 1 }) = false ∧
    (Record.wf { a := 0, b := 0, item := 0, x := 0, y := 128, trick := 0, line := 1 }) = false ∧
    (Record.wf { a := 0, b := 0, item := 0, x := 0, y := 0, trick := 128, line := 1 }) = false := by decide

/-- R5: a capacity outside 6..131070 is refused. -/
theorem test_wf_params :
    (Params.wf { p16 with cap := 5 }) = false ∧ (Params.wf { p16 with cap := 131071 }) = false ∧
    (Params.wf { p16 with cap := 6 }) = true ∧ (Params.wf { p16 with cap := 131070 }) = true := by decide

/-! ### RESET and START (40_control.md) -/

/-- V-C14: from ERROR with ILLEGAL, RESET gives STATUS 0. -/
theorem test_reset_status :
    (after .reset
      { accepting with
        ctl := .error, illegal := true, err := .malformedRecord, errFields := 1, sampleLo := 5 }).status p16 =
      0x00000000 := by decide

/-- V-C3: STATUS 0x00090404; V-C9: an unsigned comparison; V-C8: every limit accepted. -/
theorem test_start_checks :
    (beginEncode p16 (withMeta 64 0 0 2 State.reset)).status p16 = 0x00090404 ∧
    (beginEncode p16 (withMeta 0xFFFFFFFF 0 0 0 State.reset)).errFields = 0x01 ∧
    (beginEncode p16 (withMeta 63 63 63 1 State.reset)).ctl = .accept ∧
    (beginEncode p16 (withMeta 63 63 63 1 State.reset)).latched =
      { track := 63, vehicle := 63, character := 63, manual := 1 } := by decide

/-- V-C7: under LOW2 a character of 16 fails. -/
theorem test_start_low2 :
    (beginEncode { p16 with charSplit := .low2 } (withMeta 0 0 16 0 State.reset)).errFields = 0x04 := by decide

/-! ### PUSH (41_sample_input.md) and the run-length encoder (42_rle.md) -/

/-- V-S5 and R83's example: vF 0x05, vD 0xE0, vT 4, one open run in each channel, one frame. -/
theorem test_push_accepts :
    onePushed.faceCh = { sealed := [], curVal := 0x05, curCnt := 1 } ∧
    onePushed.dirCh = { sealed := [], curVal := 0xE0, curCnt := 1 } ∧
    onePushed.trickCh = { sealed := [], curVal := 4, curCnt := 1 } ∧ onePushed.frames = 1 := by decide

/-- V-S15: STATUS 0x003B0104 with the whole context, and nothing counted. -/
theorem test_push_rejects :
    let t := after .push (accepting.withOperands sampleS15)
    t.status p16 = 0x003B0104 ∧ t.errTag = 9 ∧ t.errRawLo = 0x080102FF ∧ t.errRawHi = 0x000005F8 ∧
    primaryReason t.errFields = some .button ∧ t.frames = 0 ∧ t.totalRuns = 0 := by decide

/-- P1's SAMPLE line: the four writes as (offset, data). -/
theorem test_sample_expansion :
    hostSample { a := 1, b := 0, item := 1, x := -7, y := 7, trick := 4, line := 1 } =
      [.write .word 0x008 0xF9010001, .write .word 0x00C 0x00000407, .write .word 0x010 0x00000001,
       .write .word 0x000 0x00000003] := by decide

/-- The channel `vs` leaves, sealed. -/
def sealedOf (vs : List Byte) : List Entry := (vs.foldl (fun ch v => ch.rleStep 255 v) Channel.empty).closeRun.sealed

/-- V-R2, V-R6: entries and their bytes. -/
theorem test_rle_entries :
    serializeEntries .none (sealedOf [5, 5, 2, 7]) = [0x05, 0x02, 0x02, 0x01, 0x07, 0x01] ∧
    serializeEntries .nibble (sealedOf [4, 4, 0, 2]) = [0x40, 0x02, 0x00, 0x01, 0x20, 0x01] := by decide

/-- V-R8: 510 equal trick codes give two entries of 255. -/
theorem test_rle_chunks :
    serializeEntries .nibble (sealedOf (List.replicate 510 3)) = [0x30, 0xFF, 0x30, 0xFF] := by decide +kernel

/-- V-R7: the overflow nibble. -/
theorem test_ovfNibble :
    [1, 255, 256, 510, 511, 766, 767, 4350, 4351].map ovfNibble = [0, 0, 0, 0, 1, 1, 2, 15, 0] := by decide

/-! ### The header (43_header.md) -/

/-- The four bytes V-H1 to V-H6 list. -/
def headerRow (P : Params) (m : RaceMeta) : List Byte := [0x07, 0x08, 0x09, 0x0D].map (headerByte P m)

/-- V-H1, V-H4, V-H5, V-H6. -/
theorem test_header :
    headerRow p16 { track := 0x2A, vehicle := 0x11, character := 0x25, manual := 0 } = [0xA8, 0x46, 0x50, 0x04] ∧
    headerRow p16 { track := 63, vehicle := 63, character := 63, manual := 1 } = [0xFC, 0xFF, 0xF0, 0x00] ∧
    headerRow { p16 with charSplit := .low2 } { track := 0x2A, vehicle := 0x11, character := 0x25, manual := 0 } =
      [0xA8, 0x45, 0x50, 0x04] ∧
    headerRow { p16 with driftBit := 1 } { track := 0, vehicle := 0, character := 0, manual := 0 } =
      [0x00, 0x00, 0x00, 0x02] := by decide

/-! ### CRC-32 and FINISH (44_section_checksum.md) -/

/-- V-K4, V-K5. -/
theorem test_crc32 :
    crc32 (List.replicate 16 0) = 0xECBB4B55 ∧ crc32 [0x00, 0x01, 0x77, 0x01, 0x00, 0x01] = 0x0C8F4A97 := by
  decide +kernel

/-- R180's example and P1: FINISH in ACCEPT gives STATUS 0x0000000A. -/
theorem test_finish_status : (after .finish onePushed).status p16 = 0x0000000A := by decide +kernel

/-- P1's end state: STATUS 3, the CRC of V-K6, and the window words listed under V-K11. -/
theorem test_engine_image :
    let t := engineStep p16 oneFinishing
    t.status p16 = 0x00000003 ∧ t.crc = 0x0CCC9CD5 ∧
    [0, 1, 2, 3, 34, 35, 36, 37, 38, 39, 40].map (windowWord p16 t) =
      [0xA0B1C2D3, 0x000000A8, 0x46500000, 0x00040000, 0x00010001, 0x00010501, 0xE0014001, 0, 0, 0x00000CCC,
       0x9CD50000] := by decide +kernel

/-- V-K9: 9 entries at CAP = 16 are 18 bytes, which overflow; the window reads 0. -/
theorem test_engine_overflow :
    let t := engineStep p16
      { oneFinishing with
        faceCh := [0, 1, 0, 1, 0, 1, 0].foldl (fun ch v => ch.rleStep 255 v) Channel.empty }
    t.status p16 = 0x00000314 ∧ t.errBytes = 18 ∧ windowWord p16 t 34 = 0 := by decide +kernel

/-- V-K11: FINISH with no frame, STATUS 0x00000204. -/
theorem test_engine_empty : (engineStep p16 { accepting with ctl := .finishing }).status p16 = 0x00000204 := by
  decide

/-! ### The bus (20_memory.md) -/

/-- R39, R36, R68, R63: CAPACITY, FILE_SIZE, CMD, an unmapped offset, a malformed read; SAMPLE_HI drops bits
31:16 (R67). -/
theorem test_bus_reads :
    busRead p16 .word 0x048 accepting = 16 ∧ busRead p16 .word 0x04C accepting = 0xA2 ∧
    busRead p16 .word 0x000 accepting = 0 ∧ busRead p16 .word 0x2000 accepting = 0 ∧
    busRead p16 .byte 0x048 accepting = 0 ∧
    busRead p16 .word 0x00C (writeOperand .sampleHi 0xFFFF1234 accepting) = 0x00001234 := by decide +kernel

/-- V-C15, V-C16: in FINISHING, START only flags ILLEGAL; RESET discards the FINISH. -/
theorem test_busy :
    after .start { oneFinishing with illegal := false } = { oneFinishing with illegal := true } ∧
    (after .reset oneFinishing).engineTurn = false := by decide +kernel

/-! ### Witnesses: for each statement with hypotheses, states and operands that meet them together -/

/-- The state the next step leaves. -/
def stepped (s : State) : State :=
  match step s with
  | .next t => t
  | .fault _ => s
  | .refused _ => s

/-- `oneFinishing` with `n` sealed face entries more: `n + 3` entries in all. -/
def finishingWith (n : Nat) : State :=
  { oneFinishing with faceCh := { oneFinishing.faceCh with sealed := List.replicate n { value := 0, count := 255 } } }

theorem finishingWith_totalRuns (n : Nat) : (finishingWith n).totalRuns = n + 3 := by
  have h1 : (finishingWith n).faceCh.nRuns = n + 1 := by
    have : oneFinishing.faceCh.curCnt = 1 := by decide
    simp [Channel.nRuns, finishingWith, this]
  have h2 : (finishingWith n).dirCh.nRuns = 1 := (by decide : oneFinishing.dirCh.nRuns = 1)
  have h3 : (finishingWith n).trickCh.nRuns = 1 := (by decide : oneFinishing.trickCh.nRuns = 1)
  rw [State.totalRuns, h1, h2, h3]

theorem finishingWith_turn (n : Nat) : (finishingWith n).engineTurn = true ∧ (finishingWith n).frames ≠ 0 :=
  (by decide : oneFinishing.engineTurn = true ∧ oneFinishing.frames ≠ 0)

/-- The most entries that fit, and one more. -/
theorem finishingWith_fits : 2 * (finishingWith (params.cap / 2 - 3)).totalRuns ≤ params.cap := by
  have := params_cap_bounds; rw [finishingWith_totalRuns]; omega

theorem finishingWith_overflows : 2 * (finishingWith (params.cap / 2 - 2)).totalRuns > params.cap := by
  have := params_cap_bounds; rw [finishingWith_totalRuns]; omega

/-- The state the engine leaves when the entries fit. -/
theorem engineStep_fits {n : Nat} (h : 2 * (finishingWith n).totalRuns ≤ params.cap) :
    step (finishingWith n) = .next (engineStep params (finishingWith n)) ∧
      (engineStep params (finishingWith n)).ctl = .done :=
  ⟨step_engine (finishingWith_turn n).1, (engineStep_done_iff _ _).2 ⟨(finishingWith_turn n).2, h⟩⟩

theorem oneFinishing_eq : finishingWith 0 = oneFinishing := by decide

theorem oneFinishing_fits : 2 * (finishingWith 0).totalRuns ≤ params.cap := by
  have := params_cap_bounds; rw [finishingWith_totalRuns]; omega

/-! #### Encoding -/

theorem witness_DecodeAcceptsExactlyTheEncodedWords :
    (∀ w : Word, w = 0x00000000 ∨ w = 0x00000005 ∨ w = 0x000000FF ∨ w = 0x00000100 ∨ w = 0xFFFFFF01 →
      ∀ i, w ≠ encode i) := by
  rintro w (rfl | rfl | rfl | rfl | rfl) i <;> cases i <;> decide

theorem witness_PackedRecordIsReadBack :
    Record.wf { a := -128, b := 127, item := 0, x := -128, y := 127, trick := -1, line := 0xFFFFFFFF } = true := by
  decide

/-- The ends of each gap between the header's fields, for both splits. -/
theorem witness_HeaderBytesOfTheMetadata :
    (∀ i ∈ [0x04, 0x06, 0x0A, 0x0C, 0x0E, 0x87], 0x03 < i ∧ (i < 0x07 ∨ 0x09 < i ∧ i < 0x0D ∨ 0x0D < i)) ∧
    p16.charSplit = .hi2 ∧ { p16 with charSplit := .low2 }.charSplit = .low2 := by decide

/-! #### The step and the commands -/

theorem witness_StepRunsTheWrittenCommand : ∀ i : Instr,
    (facing (.write .word 0x000 (encode i)) accepting).engineTurn = false ∧
    (facing (.write .word 0x000 (encode i)) accepting).env.bus = [.write .word 0x000 (encode i)] ∧
    decode (encode i) = .ok i := by
  intro i; cases i <;> decide

theorem witness_FetchedWordRunsAtOnce : decode (BitVec.ofNat 32 3) = .ok .push := by decide

/-- In ACCEPT and in FINISHING before the engine's turn. -/
theorem witness_ReservedWordOnlyFlagsIllegal : ∀ w : Word, w = 0 ∨ w = 5 ∨ w = 0x103 →
    (facing (.write .word 0x000 w) { oneFinishing with env := { oneFinishing.env with engineWait := 1 } }).engineTurn =
      false ∧ w ≠ 0x00000001 ∧ w ≠ 0x00000002 ∧ w ≠ 0x00000003 ∧ w ≠ 0x00000004 := by
  rintro w (rfl | rfl | rfl) <;> decide

/-- Wait over with events to come; nothing to come with a wait; no FINISH pending. -/
theorem witness_EngineStepsOnlyOnAPendingFinish :
    (facing .wait oneFinishing).engineTurn = true ∧ (facing .wait oneFinishing).ctl = .finishing ∧
    (facing .wait oneFinishing).env.engineWait = 0 ∧
    { oneFinishing with env := { oneFinishing.env with engineWait := 7 } }.env.bus = [] ∧
    accepting.ctl ≠ .finishing ∧ accepting.env.bus = [] := by decide

/-- The reset input while a FINISH is pending. -/
theorem witness_HardwareResetActsAsResetCommand :
    let s := facing .hardwareReset { oneFinishing with env := { oneFinishing.env with engineWait := 1 } }
    s.engineTurn = false ∧ s.env.bus = [.hardwareReset] := by decide

/-- Every upper limit (HI2), from DONE. -/
theorem witness_StartAcceptsLegalMetadata :
    let s := withMeta 63 63 63 1 { State.reset with ctl := .done }
    s.ctl ≠ .finishing ∧ s.metaTrack.toNat ≤ 63 ∧ s.metaVehicle.toNat ≤ 63 ∧ s.metaChar.toNat ≤ 63 ∧
      s.metaManual.toNat ≤ 1 := by decide

/-- One above each limit. -/
theorem witness_StartRefusesMetadataOutOfRange : ∀ s : State,
    s = withMeta 64 0 0 0 State.reset ∨ s = withMeta 0 64 0 0 State.reset ∨ s = withMeta 0 0 64 0 State.reset ∨
      s = withMeta 0 0 0 2 State.reset →
    s.ctl ≠ .finishing ∧
      ¬ (s.metaTrack.toNat ≤ 63 ∧ s.metaVehicle.toNat ≤ 63 ∧ s.metaChar.toNat ≤ charMax params ∧
        s.metaManual.toNat ≤ 1) := by
  rintro s (rfl | rfl | rfl | rfl) <;> exact ⟨by decide, fun h => absurd h (by decide)⟩

theorem witness_charSplit_clauses : p16.charSplit = .hi2 ∧ { p16 with charSplit := .low2 }.charSplit = .low2 := by
  decide

theorem witness_IllegalCommandsOnlyFlagIllegal :
    oneFinishing.ctl = .finishing ∧ State.reset.ctl ≠ .accept := by decide

/-- A legal START, one with bad metadata, one while busy. -/
theorem witness_StartFrame :
    exec .start State.reset = .next (after .start State.reset) ∧ State.reset.ctl ≠ .finishing ∧
    exec .start (withMeta 64 0 0 0 accepting) = .next (after .start (withMeta 64 0 0 0 accepting)) ∧
    exec .start oneFinishing = .next (after .start oneFinishing) ∧ oneFinishing.ctl = .finishing :=
  ⟨rfl, by decide, rfl, rfl, by decide⟩

/-- The lowest and the highest value of every field (V-S3 with -7 and V-S2). -/
theorem witness_PushFeedsTheThreeChannels : ∀ s : State,
    s = accepting.withOperands { lo := 0xF9000000, hi := 0x00F9, tag := 1 } ∨
      s = accepting.withOperands { lo := 0x07010101, hi := 0x0407, tag := 1 } →
    s.ctl = .accept ∧ 0 ≤ s.sample.a ∧ s.sample.a ≤ 1 ∧ 0 ≤ s.sample.b ∧ s.sample.b ≤ 1 ∧ 0 ≤ s.sample.item ∧
      s.sample.item ≤ 1 ∧ -7 ≤ s.sample.x ∧ s.sample.x ≤ 7 ∧ -7 ≤ s.sample.y ∧ s.sample.y ≤ 7 ∧
      0 ≤ s.sample.trick ∧ s.sample.trick ≤ 4 := by
  rintro s (rfl | rfl) <;> decide

/-- The neutral stick and both ends of it. -/
theorem witness_ChannelValuesOfASample :
    fieldCheck { a := 0, b := 0, item := 0, x := 0, y := 0, trick := 0 } = 0 ∧
    fieldCheck { a := 1, b := 1, item := 1, x := 7, y := 7, trick := 4 } = 0 ∧
    fieldCheck { a := 1, b := 0, item := 1, x := -7, y := -7, trick := 4 } = 0 := by decide

/-- V-S15: each field one step outside its range but ITEM. -/
theorem witness_PushRejectsAMalformedRecord :
    let s := accepting.withOperands sampleS15
    s.ctl = .accept ∧
      ¬ (0 ≤ s.sample.a ∧ s.sample.a ≤ 1 ∧ 0 ≤ s.sample.b ∧ s.sample.b ≤ 1 ∧ 0 ≤ s.sample.item ∧
        s.sample.item ≤ 1 ∧ -7 ≤ s.sample.x ∧ s.sample.x ≤ 7 ∧ -7 ≤ s.sample.y ∧ s.sample.y ≤ 7 ∧
        0 ≤ s.sample.trick ∧ s.sample.trick ≤ 4) := by decide

/-- Bit `k` alone and all bits from `k` up, for each `k`. -/
theorem witness_PrimaryReasonIsTheLowestSetBit : ∀ k, k < 6 →
    ((1 <<< k : BitVec 6).getLsbD k = true ∧ ∀ j, j < k → (1 <<< k : BitVec 6).getLsbD j = false) ∧
    ((0x3F <<< k : BitVec 6).getLsbD k = true ∧ ∀ j, j < k → (0x3F <<< k : BitVec 6).getLsbD j = false) := by
  decide

/-- An accepted sample, a rejected one, and a PUSH outside ACCEPT. -/
theorem witness_PushFrame :
    exec .push (accepting.withOperands sampleS5) = .next (after .push (accepting.withOperands sampleS5)) ∧
    (after .push (accepting.withOperands sampleS5)).ctl ≠ .error ∧
    exec .push (accepting.withOperands sampleS15) = .next (after .push (accepting.withOperands sampleS15)) ∧
    (after .push (accepting.withOperands sampleS15)).ctl = .error ∧
    exec .push State.reset = .next (after .push State.reset) ∧ State.reset.ctl ≠ .accept :=
  ⟨rfl, by decide, rfl, by decide, rfl, by decide⟩

/-- FINISH in ACCEPT and outside. -/
theorem witness_FinishFrame :
    exec .finish onePushed = .next (after .finish onePushed) ∧ onePushed.ctl = .accept ∧
    exec .finish State.reset = .next (after .finish State.reset) ∧ State.reset.ctl ≠ .accept :=
  ⟨rfl, by decide, rfl, by decide⟩

/-! #### The encoder -/

/-- No open run; an open run one below the maximum; a full run; a different value. -/
theorem witness_RleStepSeedsExtendsOrSeals :
    Channel.empty.curCnt = 0 ∧
    (∀ ch : Channel, ch = { sealed := [], curVal := 0, curCnt := 254 } → ch.curCnt ≠ 0 ∧ 0 = ch.curVal ∧
      ch.curCnt < 255) ∧
    (∀ ch : Channel, ch = { sealed := [], curVal := 0, curCnt := 255 } → ch.curCnt ≠ 0 ∧ 255 ≤ ch.curCnt) ∧
    (∀ ch : Channel, ch = { sealed := [], curVal := 0, curCnt := 1 } → ch.curCnt ≠ 0 ∧ 5 ≠ ch.curVal) ∧
    Chan.face ≠ Chan.trick := by
  refine ⟨rfl, ?_, ?_, ?_, by decide⟩ <;> rintro ch rfl <;> decide

theorem witness_SealAppendsTheOpenRun :
    onePushed.faceCh.curCnt > 0 ∧ Channel.empty.curCnt = 0 := by decide

/-- Two samples at the ends of the ranges, on empty channels. -/
theorem witness_PushesRoundTrip :
    accepting.ctl = .accept ∧ (∀ c, accepting.ch c = Channel.empty) ∧
    ∀ o ∈ [sampleS5, { lo := 0x07010101, hi := 0x0407, tag := 2 }], o.valid := by
  refine ⟨rfl, fun c => by cases c <;> rfl, ?_⟩
  intro o ho
  simp only [List.mem_cons, List.not_mem_nil, or_false] at ho
  rcases ho with rfl | rfl <;> (show fieldCheck _ = 0) <;> decide

theorem witness_ChannelsHoldChunkedMaximalBlocks : (7, 2) ∈ blocks [5, 7, 7, 5] := by decide

/-- The bounds of a count, of a trick code, and both sides of 255. -/
theorem witness_EntriesSerializeToTwoBytes :
    (∀ n, n = 1 ∨ n = 255 → 1 ≤ (Entry.mk 7 n).count ∧ (Entry.mk 7 n).count ≤ 255) ∧
    (Entry.mk 15 256).value.toNat ≤ 15 ∧ 256 > 255 ∧ 255 ≤ 255 := by
  refine ⟨?_, by decide, by decide, by decide⟩
  rintro n (rfl | rfl) <;> decide

/-- A channel of full entries, the longest run there is, meets its bounds and has counted its samples. -/
theorem full_channel (c : Chan) (n : Nat) :
    let ch : Channel := { sealed := List.replicate n { value := 0, count := 255 }, curVal := 0, curCnt := 0 }
    ch.Good c ∧ ch.total = 255 * n := by
  refine ⟨⟨by simp, ?_, ?_⟩, ?_⟩
  · intro e he
    have : e = { value := 0, count := 255 } := List.eq_of_mem_replicate (by simpa [Channel.closeRun] using he)
    subst this
    exact ⟨by decide, by simp, by cases c <;> simp [valueOk]⟩
  · simp only [Channel.closeRun, Nat.lt_irrefl, gt_iff_lt, if_false]
    induction n with
    | zero => exact .nil
    | succ n ih =>
      cases n with
      | zero => exact List.isChain_singleton _
      | succ n => exact List.IsChain.cons_cons (fun _ => by simp) ih
  · simp [Channel.total, Nat.mul_comm]

/-- 255 * 21846 samples, all alike, in every channel. -/
def longRecording : State :=
  { State.reset with
    ctl := .error
    err := .inputSectionOverflow
    errBytes := 131076
    frames := 5570730
    faceCh := { sealed := List.replicate 21846 { value := 0, count := 255 }, curVal := 0, curCnt := 0 }
    dirCh := { sealed := List.replicate 21846 { value := 0, count := 255 }, curVal := 0, curCnt := 0 }
    trickCh := { sealed := List.replicate 21846 { value := 0, count := 255 }, curVal := 0, curCnt := 0 } }

theorem longRecording_inv : EncoderInv longRecording := by
  refine ⟨fun c => ?_, fun h => by cases h⟩
  have hc : longRecording.ch c =
      { sealed := List.replicate 21846 { value := 0, count := 255 }, curVal := 0, curCnt := 0 } := by
    cases c <;> rfl
  obtain ⟨hg, ht⟩ := full_channel c 21846
  rw [hc]
  exact ⟨hg, by rw [ht]; rfl, fun h => by rcases h with h | h <;> cases h⟩

theorem witness_SectionIsDelimitedByTheCounts : ∀ c, (longRecording.ch c).Good c :=
  fun c => (longRecording_inv.1 c).1

theorem witness_LongRecordingsOverflow : EncoderInv longRecording ∧ longRecording.frames.toNat > 5570475 :=
  ⟨longRecording_inv, by decide⟩

theorem witness_StepKeepsEncoderInv :
    EncoderInv longRecording ∧ step longRecording = .next longRecording ∧
      (longRecording.ch .trick).sealed.head? = some { value := 0, count := 255 } :=
  ⟨longRecording_inv, step_idle rfl rfl, rfl⟩

/-! #### FINISH and the engine -/

theorem witness_FinishHandsOverToTheEngine : onePushed.ctl = .accept := by decide

theorem witness_EngineRejectsAnEmptyRecording :
    let s := { accepting with ctl := .finishing }
    s.engineTurn = true ∧ s.frames = 0 ∧ (∀ a, s.img.read a = 0) ∧ ∀ c, s.ch c = Channel.empty :=
  ⟨rfl, rfl, fun _ => rfl, fun c => by cases c <;> rfl⟩

/-- One entry more than fits. -/
theorem witness_EngineRejectsAnOverflowingSection :
    let s := finishingWith (params.cap / 2 - 2)
    s.engineTurn = true ∧ s.frames ≠ 0 ∧ 2 * s.totalRuns > params.cap :=
  ⟨(finishingWith_turn _).1, (finishingWith_turn _).2, finishingWith_overflows⟩

/-- The most entries that fit, and the fewest there can be. -/
theorem witness_EngineWritesTheWholeImage :
    let s := finishingWith (params.cap / 2 - 3)
    (s.engineTurn = true ∧ s.frames ≠ 0 ∧ 2 * s.totalRuns ≤ params.cap) ∧
    oneFinishing.engineTurn = true ∧ oneFinishing.frames ≠ 0 ∧ 2 * oneFinishing.totalRuns ≤ params.cap :=
  ⟨⟨(finishingWith_turn _).1, (finishingWith_turn _).2, finishingWith_fits⟩, by decide, by decide,
    oneFinishing_eq ▸ oneFinishing_fits⟩

theorem sampleS5_valid : sampleS5.valid := (by decide : fieldCheck _ = 0)

/-- One frame, six bytes, the shortest section there is; it also meets the fitting clause of
EncodeOverflowsExactlyBeyondCapacity, at its bound where CAP is 6. -/
theorem witness_EncodeYieldsTheGhostFile :
    let s := withMeta 63 63 63 1 State.reset
    s.ctl ≠ .finishing ∧ s.metaLegal ∧ [sampleS5] ≠ [] ∧ (∀ o ∈ [sampleS5], o.valid) ∧
      (recordingSection [sampleS5]).length ≤ params.cap := by
  refine ⟨by decide, ⟨by decide, by decide, by decide, by decide⟩, by decide, fun o ho => ?_, ?_⟩
  · rw [List.mem_singleton.1 ho]; exact sampleS5_valid
  · have h : (recordingSection [sampleS5]).length = 6 := by decide +kernel
    have := params_cap_bounds
    omega

theorem blocks_replicate (v : Byte) (n : Nat) : blocks (List.replicate (n + 1) v) = [(v, n + 1)] := by
  induction n with
  | zero => rfl
  | succ n ih => rw [List.replicate_succ, blocks, ih]; simp

theorem encodedRuns_replicate (v : Byte) {q : Nat} (hq : 0 < q) :
    (encodedRuns (List.replicate (255 * q) v)).length = q := by
  obtain ⟨n, hn⟩ : ∃ n, 255 * q = n + 1 := ⟨255 * q - 1, by omega⟩
  rw [hn, encodedRuns, blocks_replicate, ← hn]
  simp [blockEntries]

/-- 255 * 21846 equal samples take 3 * 21846 entries, which overflows every legal capacity. -/
theorem witness_EncodeOverflowsExactlyBeyondCapacity :
    State.reset.ctl ≠ .finishing ∧ State.reset.metaLegal ∧
      (∀ o ∈ List.replicate (255 * 21846) sampleS5, o.valid) ∧
      (recordingSection (List.replicate (255 * 21846) sampleS5)).length > params.cap := by
  refine ⟨by decide, ⟨by decide, by decide, by decide, by decide⟩, fun o ho => ?_, ?_⟩
  · rw [List.eq_of_mem_replicate ho]; exact sampleS5_valid
  · have := params_cap_bounds
    have hn : ∀ c, (encodedRuns (channelInput c (List.replicate (255 * 21846) sampleS5))).length = 21846 := by
      intro c
      rw [channelInput, List.map_replicate]
      exact encodedRuns_replicate _ (by decide)
    simp only [recordingSection, List.length_append, serializeEntries_length, hn]
    omega

/-- Different tags, earlier states and ILLEGAL flags. -/
theorem witness_EncodeIsDeterministic : ∃ t1 t2,
    let s1 := State.reset
    let s2 := { State.reset with ctl := .done, illegal := true, frames := 9 }
    let os1 := [sampleS5]
    let os2 := [{ sampleS5 with tag := 2 }]
    s1.ctl ≠ .finishing ∧ s2.ctl ≠ .finishing ∧ s1.metaTrack = s2.metaTrack ∧ s1.metaVehicle = s2.metaVehicle ∧
      s1.metaChar = s2.metaChar ∧ s1.metaManual = s2.metaManual ∧
      os1.map (fun o => (o.lo, o.hi)) = os2.map (fun o => (o.lo, o.hi)) ∧
      encodeRun os1 s1 = .next t1 ∧ encodeRun os2 s2 = .next t2 :=
  ⟨_, _, by decide, by decide, rfl, rfl, rfl, rfl, rfl, rfl, rfl⟩

/-- What START, the pushes and FINISH hand to the engine. -/
def handedOver (os : List Operands) (s : State) : State :=
  match andThen (exec .start s) fun s1 => andThen (pushAll os s1) (exec .finish) with
  | .next t => t
  | .fault _ => s
  | .refused _ => s

/-- Three entries fit in every legal capacity. -/
theorem engineStep_three {s : State} (hf : s.frames ≠ 0) (hr : s.totalRuns = 3) :
    (engineStep params s).ctl = .done :=
  (engineStep_done_iff _ _).2 ⟨hf, by have := params_cap_bounds; omega⟩

/-- The same metadata over different samples; the same samples, tags apart, under different metadata. -/
theorem witness_EncodesOfEqualMetadataOrSamples :
    let s2 := withMeta 63 1 2 1 State.reset
    let t1 := engineStep params (handedOver [sampleS5] State.reset)
    let t2 := engineStep params (handedOver [sampleS5, sampleS5] State.reset)
    let t3 := engineStep params (handedOver [{ sampleS5 with tag := 7 }] s2)
    State.reset.ctl ≠ .finishing ∧ s2.ctl ≠ .finishing ∧ encodeRun [sampleS5] State.reset = .next t1 ∧
      encodeRun [sampleS5, sampleS5] State.reset = .next t2 ∧
      encodeRun [{ sampleS5 with tag := 7 }] s2 = .next t3 ∧ t1.ctl = .done ∧ t2.ctl = .done ∧ t3.ctl = .done ∧
      [sampleS5].map (fun o => (o.lo, o.hi)) = [{ sampleS5 with tag := 7 }].map (fun o => (o.lo, o.hi)) ∧
      State.reset.metaTrack ≠ s2.metaTrack :=
  ⟨by decide, by decide, rfl, rfl, rfl, engineStep_three (by decide) (by decide +kernel),
    engineStep_three (by decide) (by decide +kernel), engineStep_three (by decide) (by decide +kernel), rfl,
    by decide⟩

/-- Engine steps: the same metadata over different channels, and the same channels. -/
theorem witness_HeaderAndChecksumAreIndependent :
    let s1 := finishingWith 0
    let s2 := finishingWith (params.cap / 2 - 3)
    s1.engineTurn = true ∧ s2.engineTurn = true ∧ step s1 = .next (engineStep params s1) ∧
      step s2 = .next (engineStep params s2) ∧ (engineStep params s1).ctl = .done ∧
      (engineStep params s2).ctl = .done ∧ s1.latched = s2.latched ∧ ∀ c, s1.ch c = s1.ch c :=
  ⟨(finishingWith_turn _).1, (finishingWith_turn _).1, (engineStep_fits oneFinishing_fits).1,
    (engineStep_fits finishingWith_fits).1, (engineStep_fits oneFinishing_fits).2,
    (engineStep_fits finishingWith_fits).2, rfl, fun _ => rfl⟩

/-! #### The bus -/

theorem witness_RegisterReadReturnsTheRegister : ∀ r : Reg,
    (facing (.read .word r.offset) accepting).engineTurn = false ∧
    (facing (.read .word r.offset) accepting).env.bus = [.read .word r.offset] := by
  intro r; cases r <;> decide

/-- A half-word, a misaligned word, the last reserved offset, the last unmapped one, and the first offset past
the window; a window read before DONE. -/
theorem witness_ReadsOutsideRegistersAndReadyImageGiveZero :
    (facing (.read .half 0x1002) accepting).engineTurn = false ∧ AccessSize.half ≠ .word ∧
    (0x1002 : Offset).toNat % 4 ≠ 0 ∧
    (∀ r : Reg, (0xFFC : Offset) ≠ r.offset ∧ (0x3FFFC : Offset) ≠ r.offset) ∧
    (0xFFC : Offset).toNat < 0x1000 ∧ 0x1000 + 4 * outWords params ≤ (0x3FFFC : Offset).toNat ∧
    (BitVec.ofNat 18 (0x1000 + 4 * outWords params)).toNat = 0x1000 + 4 * outWords params ∧
    0x1000 ≤ (0x1000 : Offset).toNat ∧ accepting.ctl ≠ .done := by
  have hc := params_cap_bounds
  have hw : 4 * outWords params ≤ 0x20090 := by unfold outWords fileSize; omega
  refine ⟨by decide, by decide, by decide, fun r => by cases r <;> decide, by decide, ?_, ?_, by decide, by decide⟩
  · have : (0x3FFFC : Offset).toNat = 0x3FFFC := by decide
    omega
  · rw [BitVec.toNat_ofNat]; omega

/-- The first and the last word of the window. -/
theorem witness_WindowPacksImageBytesBigEndian : ∀ k, k = 0 ∨ k = outWords params - 1 →
    let s := facing (.read .word (BitVec.ofNat 18 (0x1000 + 4 * k))) { State.reset with ctl := .done }
    s.engineTurn = false ∧ s.ctl = .done ∧ k < outWords params ∧
      s.env.bus = [.read .word (BitVec.ofNat 18 (0x1000 + 4 * k))] := by
  have : 0 < outWords params := by unfold outWords fileSize; omega
  rintro k (rfl | rfl)
  · exact ⟨rfl, rfl, this, rfl⟩
  · exact ⟨rfl, rfl, by omega, rfl⟩

theorem witness_OperandWriteIsReadBack : ∀ r : Reg, r.access = .readWrite →
    (facing (.write .word r.offset 0xFFFFFFFF) accepting).engineTurn = false ∧
    (facing (.write .word r.offset 0xFFFFFFFF) accepting).ctl ≠ .finishing ∧
    (facing (.write .word r.offset 0xFFFFFFFF) accepting).env.bus = [.write .word r.offset 0xFFFFFFFF] := by
  intro r _; cases r <;> decide

/-- A malformed size, a misaligned word, a read-only register, and the first reserved, window and last unmapped
offsets. -/
theorem witness_BadWritesOnlyFlagIllegal :
    (facing (.write .byte 0x000 1) accepting).engineTurn = false ∧ AccessSize.byte ≠ .word ∧
    (0x00A : Offset).toNat % 4 ≠ 0 ∧ (∃ r : Reg, r.access = .readOnly ∧ (0x004 : Offset) = r.offset) ∧
    (∀ r : Reg, (0x050 : Offset) ≠ r.offset ∧ (0x1000 : Offset) ≠ r.offset ∧ (0x3FFFC : Offset) ≠ r.offset) :=
  ⟨by decide, by decide, by decide, ⟨.status, by decide, by decide⟩, fun r => by cases r <;> decide⟩

/-- A write of START and the write of RESET while busy. -/
theorem witness_BusyTurnsEveryWriteAwayButReset : ∀ v : Word, v = 1 ∨ v = 2 →
    let s := facing (.write .word 0x000 v) { oneFinishing with env := { oneFinishing.env with engineWait := 1 } }
    s.engineTurn = false ∧ s.ctl = .finishing ∧ s.env.bus = [.write .word 0x000 v] ∧
      ((v = 2 → ¬ (AccessSize.word = .word ∧ (0x000 : Offset) = 0x000 ∧ v = 0x00000001)) ∧
        (v = 1 → AccessSize.word = .word ∧ (0x000 : Offset) = 0x000 ∧ v = 0x00000001)) := by
  rintro v (rfl | rfl) <;> decide

/-- While busy, and not. -/
theorem witness_WaitPollsUntilNotBusy :
    (facing .wait { oneFinishing with env := { oneFinishing.env with engineWait := 1 } }).engineTurn = false ∧
    (facing .wait { oneFinishing with env := { oneFinishing.env with engineWait := 1 } }).env.bus = [.wait] ∧
    (facing .wait accepting).engineTurn = false ∧ (facing .wait accepting).env.bus = [.wait] := by decide

/-! #### Whole-machine rules -/

/-- A RESET and a START on a flagged block. -/
theorem witness_OnlyResetClearsIllegal :
    let s1 := facing (.write .word 0x000 1) { accepting with illegal := true }
    let s2 := facing (.write .word 0x000 2) { accepting with illegal := true }
    step s1 = .next (stepped s1) ∧ s1.illegal = true ∧ s1.resetNext = true ∧
      step s2 = .next (stepped s2) ∧ s2.illegal = true ∧ s2.resetNext = false :=
  ⟨rfl, rfl, by decide, rfl, rfl, by decide⟩

/-- A PUSH in ERROR. -/
theorem witness_OnlyStartAndResetLeaveError :
    let s := facing (.write .word 0x000 3) (after .push (accepting.withOperands sampleS15))
    step s = .next (stepped s) ∧ s.ctl = .error ∧ s.commandIssued ≠ some .start ∧ s.resetNext = false :=
  ⟨rfl, by decide, by decide, by decide⟩

/-- A write to META_TRACK in ACCEPT, and START while busy. -/
theorem witness_MetadataIsFixedForTheWholeEncode :
    let s1 := facing (.write .word 0x014 5) onePushed
    let s2 := facing (.write .word 0x000 2) { oneFinishing with env := { oneFinishing.env with engineWait := 1 } }
    step s1 = .next (stepped s1) ∧ s1.resetNext = false ∧ s1.commandIssued ≠ some .start ∧
      step s2 = .next (stepped s2) ∧ s2.resetNext = false ∧ s2.commandIssued = some .start ∧
      s2.ctl = .finishing :=
  ⟨rfl, by decide, by decide, rfl, by decide, by decide, rfl⟩

/-- A successful engine step, and START on what it leaves. -/
theorem witness_OnlyTheEngineFillsTheImage :
    step (finishingWith 0) = .next (engineStep params (finishingWith 0)) ∧
    (finishingWith 0).engineTurn = true ∧ (engineStep params (finishingWith 0)).ctl = .done ∧
    ∃ t, step (facing (.write .word 0x000 2) { State.reset with ctl := .done, crc := 1, img := [(0, 1)] }) = .next t :=
  ⟨(engineStep_fits oneFinishing_fits).1, (finishingWith_turn 0).1, (engineStep_fits oneFinishing_fits).2, step_next _⟩

/-- A write to SAMPLE_TAG, seen from SAMPLE_LO. -/
theorem witness_OperandRegistersChangeOnlyByTheirOwnWrite :
    let s := facing (.write .word 0x010 5) accepting
    step s = .next (stepped s) ∧ Reg.sampleLo.access = .readWrite ∧ s.resetNext = false ∧
      ∀ size v, s.env.bus.head? ≠ some (.write size Reg.sampleLo.offset v) := by
  refine ⟨rfl, rfl, by decide, fun size v h => ?_⟩
  have h : BusEvent.write .word 0x010 5 = .write size Reg.sampleLo.offset v := Option.some.inj h
  injection h with _ h _
  exact absurd h (by decide)

/-- One entry over with the host to move and nothing to come; the engine's turn with one over and with all
fitting. -/
theorem witness_OvfForetellsTheVerdict :
    let s := { finishingWith (params.cap / 2 - 2) with ctl := .accept }
    let s1 := finishingWith (params.cap / 2 - 2)
    step s = .next s ∧ s.ovf params = true ∧ s.commandIssued ≠ some .start ∧ s.resetNext = false ∧
      s1.engineTurn = true ∧ s1.frames ≠ 0 ∧ s1.ovf params = true ∧ (finishingWith 0).ovf params = false := by
  refine ⟨step_idle rfl rfl, decide_eq_true finishingWith_overflows, by decide, by decide, (finishingWith_turn _).1,
    (finishingWith_turn _).2, decide_eq_true finishingWith_overflows, ?_⟩
  exact decide_eq_false (Nat.not_lt.2 oneFinishing_fits)

/-- The reset input comes only after the events the engine waits for. -/
theorem witness_FinishCompletesUnlessReset :
    let s := { oneFinishing with
      env := { oneFinishing.env with bus := [.wait, .write .word 0x000 3, .hardwareReset], engineWait := 2 } }
    s.ctl = .finishing ∧ ∀ e ∈ s.env.bus.take s.env.engineWait, resets e = false := by decide

/-- A rejected record's state, with nothing to come. -/
theorem witness_StepKeepsErrorInv :
    let s := after .push (accepting.withOperands sampleS15)
    ErrorInv s ∧ step s = .next s := by
  refine ⟨⟨by decide +kernel, ?_⟩, rfl⟩
  show _ ≠ _ ∧ _ = _ ∧ _ < _ ∧ _ = _
  decide +kernel

/-- DONE with an image, with nothing to come. -/
theorem witness_StepKeepsImageInv :
    let t := engineStep params (finishingWith 0)
    ImageInv t ∧ step t = .next t := by
  have hd := (engineStep_fits oneFinishing_fits).2
  have hb : (engineStep params (finishingWith 0)).env.bus = [] := by
    rw [(engineStep_frame params (finishingWith 0)).2.2.2.1]; rfl
  refine ⟨?_, step_idle (engineTurn_false_of_ctl (by rw [hd]; decide)) hb⟩
  rcases engineStep_cases params (finishingWith 0) with ⟨hf, -⟩ | ⟨-, hl, -⟩ | ⟨-, -, he⟩
  · exact absurd hf (finishingWith_turn 0).2
  · rw [sectionBytes_sealChannels_length] at hl; exact absurd hl (Nat.not_lt.2 oneFinishing_fits)
  · rw [he]
    refine ⟨Memory.wf_load _ _, fun hn => absurd rfl hn, fun _ => ⟨(finishingWith_turn 0).2, fun c => ?_, ?_,
      fun i => Memory.read_load_zero _ i, rfl⟩⟩
    · have : ((sealChannels (finishingWith 0)).ch c).curCnt = 0 := by rw [sealChannels_ch]; exact closeRun_curCnt _
      cases c <;> exact this
    · have := oneFinishing_fits
      simp only [State.totalRuns, sealChannels_fields, closeRun_nRuns] at this ⊢
      exact this

end Sys2Proof.Machine.Tests
end

section
/-! PROOFS. Bus reads of the output window (spec/20_memory.md). -/

namespace Sys2Proof.Machine

/-! ### A bus read as a step -/

/-- What a read returns is no business of the events still to come and of the engine's wait (R67). -/
@[simp] theorem busRead_afterEvent (P : Params) (size : AccessSize) (off : Offset) (s : State)
    (rest : List BusEvent) : busRead P size off (s.afterEvent rest) = busRead P size off s := rfl

/-- On the host's turn a read hands over its data and leaves the block alone (R67, R71). -/
theorem step_read {s : State} {size : AccessSize} {off : Offset} {rest : List BusEvent}
    (h : s.engineTurn = false) (hb : s.env.bus = .read size off :: rest) :
    step s =
      .next { s with
        env := { s.env with
          bus := rest, rdata := busRead params size off s, engineWait := s.env.engineWait - 1 } } := by
  rw [step_event h hb, performEvent, busRead_afterEvent]
  rfl

/-! ### The offsets of the output window -/

/-- The window lies inside the aperture, so the offset of word `k` does not wrap (R60, R61). -/
theorem windowOffset_toNat {k : Nat} (hk : k < outWords params) :
    (BitVec.ofNat 18 (0x1000 + 4 * k)).toNat = 0x1000 + 4 * k := by
  have hcap := params_cap_bounds.2
  rw [BitVec.toNat_ofNat]
  unfold outWords fileSize at hk
  omega

/-- The registers lie below the window (R34, R61). -/
theorem regAt_eq_none_of_le {off : Offset} (h : 0x50 ≤ off.toNat) : regAt off = none := by
  rw [regAt_eq_none_iff]
  rintro r rfl
  have := (Reg.offset_toNat r).2
  omega

theorem windowIndex_windowOffset {k : Nat} (hk : k < outWords params) :
    windowIndex params (BitVec.ofNat 18 (0x1000 + 4 * k)) = some k := by
  rw [windowIndex, windowOffset_toNat hk, if_pos (by omega), Option.some.injEq]
  omega

/-- A word read at offset `0x1000 + 4 * k` returns word `k` of the window, in every state (R61, R66). -/
theorem busRead_windowOffset (s : State) {k : Nat} (hk : k < outWords params) :
    busRead params .word (BitVec.ofNat 18 (0x1000 + 4 * k)) s = windowWord params s k := by
  have hoff := windowOffset_toNat hk
  have hok : accessOk .word (BitVec.ofNat 18 (0x1000 + 4 * k)) = true := accessOk_iff.2 ⟨rfl, by omega⟩
  rw [busRead, if_pos hok, readWord, regAt_eq_none_of_le (by omega), windowIndex_windowOffset hk]

/-! ### The bytes of a window word -/

/-- `Img'[i]` as a number, with FILE_SIZE written out (R10, R65). -/
theorem imageByte_toNat (P : Params) (s : State) (i : Nat) :
    (imageByte P s i).toNat = if i < 0x92 + P.cap then (s.img.read i).toNat else 0 := by
  rw [imageByte, fileSize]
  split <;> rfl

/-- In DONE a window word is its four bytes, first byte most significant (R65). -/
theorem windowWord_toNat_of_done {P : Params} {s : State} (hd : s.ctl = .done) (k : Nat) :
    (windowWord P s k).toNat =
      (imageByte P s (4 * k)).toNat * 2 ^ 24 + (imageByte P s (4 * k + 1)).toNat * 2 ^ 16 +
        (imageByte P s (4 * k + 2)).toNat * 2 ^ 8 + (imageByte P s (4 * k + 3)).toNat := by
  rw [windowWord, if_pos hd, packWord_toNat]

/-- Settles O42: the step is a read (`step_read`), its data is the window's word `k` (`busRead_windowOffset`),
and that word is the four padded bytes of R65 (`windowWord_toNat_of_done`, `imageByte_toNat`). -/
theorem windowPacksImageBytesBigEndian : Obligations.WindowPacksImageBytesBigEndian := by
  intro s k rest hturn hdone hk hbus
  refine ⟨windowWord params s k, ?_, ?_⟩
  · rw [step_read hturn hbus, busRead_windowOffset s hk]
  · simp only [windowWord_toNat_of_done hdone, imageByte_toNat]

end Sys2Proof.Machine
end

section
/-! PROOFS. Command words and the host's packing (spec/30_encoding.md). -/

namespace Sys2Proof.Machine

/-- Settles O1: each word is `encode` of its command by computation, `decode_encode` reads it back, and
`eq_encode_of_decode` says no other word decodes to the command. -/
theorem tableWordsDecodeToTheirCommands : Obligations.TableWordsDecodeToTheirCommands :=
  ⟨decode_encode .reset, decode_encode .start, decode_encode .push, decode_encode .finish,
    rfl, rfl, rfl, rfl, fun _ _ => eq_encode_of_decode⟩

/-! ### The packed words as sums of low bytes -/

/-- Saturation by cases: a number below the range goes to its lower end, one above to its upper end (R83). -/
theorem saturateRaw_eq_ite (r : Int) : saturateRaw r = if r < -128 then -128 else if r > 127 then 127 else r := by
  rw [saturateRaw]
  split_ifs <;> omega

/-- The low byte of an integer, `z & 0xFF`, is its remainder modulo 256 (R85). -/
theorem ofInt_byte_toNat (z : Int) : ((BitVec.ofInt 8 z).toNat : Int) = z % 256 := by
  rw [BitVec.toNat_ofInt, Int.toNat_of_nonneg (Int.emod_nonneg _ (by decide))]
  rfl

/-- SAMPLE_LO holds the low bytes of the saturated A, B, ITEM and X, A lowest (R85). -/
theorem packSampleLo_toNat (r : Record) :
    ((packSampleLo r).toNat : Int) =
      saturateRaw r.a % 256 + saturateRaw r.b % 256 * 2 ^ 8 + saturateRaw r.item % 256 * 2 ^ 16 +
        saturateRaw r.x % 256 * 2 ^ 24 := by
  simp only [← ofInt_byte_toNat, packSampleLo, toNat_append_byte]
  push_cast
  ring

/-- SAMPLE_HI holds the low bytes of the saturated Y and TRICK, Y lowest (R85). -/
theorem packSampleHi_toNat (r : Record) :
    ((packSampleHi r).toNat : Int) = saturateRaw r.y % 256 + saturateRaw r.trick % 256 * 2 ^ 8 := by
  rw [packSampleHi, BitVec.toNat_setWidth_of_le (by decide), toNat_append_byte]
  simp only [← ofInt_byte_toNat]
  push_cast
  ring

/-- Bits 31:16 of SAMPLE_HI are 0: it is the sum of two bytes (R85). -/
theorem packSampleHi_lt (r : Record) : (packSampleHi r).toNat < 2 ^ 16 := by
  have h := packSampleHi_toNat r
  omega

/-! ### Reading a packed record back -/

/-- A well-formed record is one that saturation leaves alone (R83). -/
theorem saturateRaw_of_wf {r : Record} (h : r.wf = true) :
    saturateRaw r.a = r.a ∧ saturateRaw r.b = r.b ∧ saturateRaw r.item = r.item ∧ saturateRaw r.x = r.x ∧
      saturateRaw r.y = r.y ∧ saturateRaw r.trick = r.trick := by
  simp only [Record.wf, Bool.and_eq_true] at h
  obtain ⟨⟨⟨⟨⟨ha, hb⟩, hi⟩, hx⟩, hy⟩, ht⟩ := h
  exact ⟨saturateRaw_of_ok ha, saturateRaw_of_ok hb, saturateRaw_of_ok hi, saturateRaw_of_ok hx,
    saturateRaw_of_ok hy, saturateRaw_of_ok ht⟩

/-- PUSH extracts from the packed words of a well-formed record its own six integers (R83, R85). -/
theorem sampleOf_pack_of_wf {r : Record} (h : r.wf = true) :
    sampleOf (packSampleLo r) ((packSampleHi r).setWidth 16) =
      { a := r.a, b := r.b, item := r.item, x := r.x, y := r.y, trick := r.trick } := by
  obtain ⟨ha, hb, hi, hx, hy, ht⟩ := saturateRaw_of_wf h
  rw [sampleOf_pack, ha, hb, hi, hx, hy, ht]

/-- Settles O4: the words are the sums of R85 (`packSampleLo_toNat`, `packSampleHi_toNat`), saturation by cases
being `saturateRaw`; extraction undoes packing where saturation does nothing (`sampleOf_pack_of_wf`); the host's
writes are those of R86 by computation. -/
theorem packedRecordIsReadBack : Obligations.PackedRecordIsReadBack := by
  refine ⟨fun r => ⟨?_, packSampleHi_lt r, rfl⟩, fun r => sampleOf_pack_of_wf, rfl, rfl⟩
  simp only [← saturateRaw_eq_ite]
  exact ⟨packSampleLo_toNat r, packSampleHi_toNat r⟩

end Sys2Proof.Machine
end

section
/-! PROOFS. START with metadata out of range, and the reserved command (spec/40_control.md). -/

namespace Sys2Proof.Machine

/-! ### START with metadata out of range -/

theorem charMax_of_hi2 {P : Params} (h : P.charSplit = .hi2) : charMax P = 63 := by rw [charMax, h]

theorem charMax_of_low2 {P : Params} (h : P.charSplit = .low2) : charMax P = 15 := by rw [charMax, h]

/-- MetaCheck bit by bit: bits 0 to 3 are the failing fields, bits 5:4 stay 0 (R110). -/
theorem metaBad_getLsbD (P : Params) (s : State) :
    ((s.metaBad P).getLsbD 0 = true ↔ s.metaTrack.toNat > 63) ∧
    ((s.metaBad P).getLsbD 1 = true ↔ s.metaVehicle.toNat > 63) ∧
    ((s.metaBad P).getLsbD 2 = true ↔ s.metaChar.toNat > charMax P) ∧
    ((s.metaBad P).getLsbD 3 = true ↔ s.metaManual.toNat > 1) ∧
    (s.metaBad P).getLsbD 4 = false ∧ (s.metaBad P).getLsbD 5 = false := by
  simp only [State.metaBad, metaCheck, mask6_getLsbD, decide_eq_true_eq, and_self]

/-- START on metadata that is not legal clears the encode and raises INVALID_METADATA with MetaCheck's mask
(R101, R110). -/
theorem exec_start_not_legal {s : State} (hs : s.ctl ≠ .finishing) (hm : ¬ s.metaLegal) :
    exec .start s =
      .next (raiseError { code := .invalidMetadata, fields := s.metaBad params }
        (clearError (clearEncode s))) := by
  rw [exec, execStart, if_neg hs]
  rcases beginEncode_cases params s with ⟨hb, -⟩ | ⟨-, he⟩
  · exact absurd ((metaBad_eq_zero_iff s).1 hb) hm
  · rw [he]

/-- Settles O14: CHAR_MAX is 63 here (`charMax_of_hi2`), so the premise says that the metadata is not legal;
START then raises the error (`exec_start_not_legal`) with the mask of MetaCheck, whose bits are those of R110
(`metaBad_getLsbD`). -/
theorem startRefusesMetadataOutOfRange : Obligations.StartRefusesMetadataOutOfRange := by
  refine ⟨rfl, fun P => ⟨charMax_of_hi2, charMax_of_low2⟩, fun s hs hm => ?_⟩
  have hillegal : ¬ s.metaLegal := by rwa [charMax_of_hi2 rfl] at hm
  exact ⟨s.metaBad params, exec_start_not_legal hs hillegal, metaBad_getLsbD params s⟩

/-! ### The reserved command -/

/-- An aligned 32-bit write to CMD runs the command of its word (R36, R62). -/
theorem busWrite_cmd (w : Word) (s : State) : busWrite .word Reg.cmd.offset w s = command w s := by
  rw [busWrite, if_pos (accessOk_offset .cmd), if_pos rfl]

/-- A word that is no command's word only flags ILLEGAL (R82, R103). -/
theorem command_of_ne_encode {w : Word} (h : ∀ i, w ≠ encode i) (s : State) :
    command w s = .next (flagIllegal s) := by
  rw [command]
  cases hd : decode w with
  | ok i => exact absurd (eq_encode_of_decode hd) (h i)
  | error e => rfl

/-- Settles O8: the step performs the write (`step_event`), the write runs its word (`busWrite_cmd`), and the
word is none of the four, so only ILLEGAL is flagged (`command_of_ne_encode`). -/
theorem reservedWordOnlyFlagsIllegal : Obligations.ReservedWordOnlyFlagsIllegal := by
  intro s w rest hturn hbus hreset hstart hpush hfinish
  have hreserved : ∀ i, w ≠ encode i
    | .reset => hreset
    | .start => hstart
    | .push => hpush
    | .finish => hfinish
  calc step s = busWrite .word Reg.cmd.offset w (s.afterEvent rest) := step_event hturn hbus
    _ = command w (s.afterEvent rest) := busWrite_cmd w _
    _ = .next (flagIllegal (s.afterEvent rest)) := command_of_ne_encode hreserved _

end Sys2Proof.Machine
end

section
/-! PROOFS. FieldCheck, the channel values of a sample and the rejection of a malformed record
(spec/41_sample_input.md). -/

namespace Sys2Proof.Machine

/-! ### FieldCheck, bit by bit -/

/-- Settles O19: the bits of a mask are the flags given for it (`mask6_getLsbD`), and each flag of FieldCheck
says that its field is outside the field's range (`outside_eq_true_iff`). -/
theorem fieldCheckMarksEveryFailingField : Obligations.FieldCheckMarksEveryFailingField := by
  intro p
  simp only [fieldCheck, mask6_getLsbD, outside_eq_true_iff, and_self]

/-! ### PUSH of a malformed record -/

/-- PUSH of a sample that fails FieldCheck rejects it (R120). -/
theorem exec_push_malformed {s : State} (hs : s.ctl = .accept) (hbad : fieldCheck s.sample ≠ 0) :
    exec .push s = .next (rejectSample (fieldCheck s.sample) s) := by
  rw [exec, execPush, if_neg (not_not.2 hs), if_pos hbad]

/-- SAMPLE_HI reads with its upper half 0, so the mask of R122 takes nothing from it (R34). -/
theorem readReg_sampleHi_and_low16 (P : Params) (s : State) :
    readReg P s .sampleHi &&& 0xFFFF = s.sampleHi.setWidth 32 := by
  have hlt := s.sampleHi.isLt
  apply BitVec.eq_of_toNat_eq
  rw [readReg, BitVec.toNat_and, BitVec.toNat_setWidth]
  exact (Nat.and_two_pow_sub_one_eq_mod _ 16).trans (by omega)

/-- Settles O20: a field out of range makes FieldCheck non-zero (`fieldCheck_eq_zero_iff`), so PUSH rejects the
sample (`exec_push_malformed`); the context it latches is that of R122, SAMPLE_HI by
`readReg_sampleHi_and_low16`. -/
theorem pushRejectsAMalformedRecord : Obligations.PushRejectsAMalformedRecord := by
  intro s hs hout
  have hbad : fieldCheck s.sample ≠ 0 := by
    rw [Ne, fieldCheck_eq_zero_iff]
    simpa only [and_assoc] using hout
  refine ⟨?_, hbad⟩
  rw [exec_push_malformed hs hbad, readReg_sampleHi_and_low16]
  rfl

/-! ### The primary reason, by the lowest set bit -/

theorem primaryReason_eq_button {fields : BitVec 6}
    (h : fields.getLsbD 0 = true ∨ fields.getLsbD 1 = true ∨ fields.getLsbD 2 = true) :
    primaryReason fields = some .button := by
  rw [primaryReason, if_pos (by simpa only [Bool.or_eq_true, or_assoc] using h)]

theorem primaryReason_eq_stick {fields : BitVec 6} (hlow : ∀ j, j < 3 → fields.getLsbD j = false)
    (h : fields.getLsbD 3 = true ∨ fields.getLsbD 4 = true) : primaryReason fields = some .stick := by
  simp only [primaryReason, hlow, Nat.reduceLT, Bool.or_self, Bool.false_eq_true, if_false, Bool.or_eq_true, h,
    if_true]

theorem primaryReason_eq_trick {fields : BitVec 6} (hlow : ∀ j, j < 5 → fields.getLsbD j = false)
    (h : fields.getLsbD 5 = true) : primaryReason fields = some .trick := by
  simp only [primaryReason, hlow, Nat.reduceLT, Bool.or_self, Bool.false_eq_true, if_false, h, if_true]

/-- Settles O21: the lowest set bit lies in one of the three classes of R123, each of which has its lemma; the
texts are by computation. -/
theorem primaryReasonIsTheLowestSetBit : Obligations.PrimaryReasonIsTheLowestSetBit := by
  refine ⟨fun fields k hk hset hlow => ?_, rfl, rfl, rfl, rfl⟩
  obtain h | h | h : k ≤ 2 ∨ (3 ≤ k ∧ k ≤ 4) ∨ k = 5 := by omega
  · rw [if_pos h]
    obtain rfl | rfl | rfl : k = 0 ∨ k = 1 ∨ k = 2 := by omega
    · exact primaryReason_eq_button (.inl hset)
    · exact primaryReason_eq_button (.inr (.inl hset))
    · exact primaryReason_eq_button (.inr (.inr hset))
  · obtain ⟨h3, h4⟩ := h
    rw [if_neg (by omega), if_pos h4]
    refine primaryReason_eq_stick (fun j hj => hlow j (hj.trans_le h3)) ?_
    obtain rfl | rfl : k = 3 ∨ k = 4 := by omega
    · exact .inl hset
    · exact .inr hset
  · subst h
    exact primaryReason_eq_trick hlow hset

/-! ### The bits of the channel values -/

/-- A bit of a bit vector as a digit of its number. -/
theorem getLsbD_iff_toNat {n : Nat} (v : BitVec n) (k : Nat) :
    v.getLsbD k = true ↔ v.toNat / 2 ^ k % 2 = 1 := by
  rw [BitVec.getLsbD, Nat.testBit_eq_decide_div_mod_eq, decide_eq_true_eq]

/-- A field of a bit vector as digits of its number. -/
theorem extractLsb'_toNat_eq_div_mod {n : Nat} (v : BitVec n) (lo len : Nat) :
    (v.extractLsb' lo len).toNat = v.toNat / 2 ^ lo % 2 ^ len := by
  rw [BitVec.extractLsb'_toNat, Nat.shiftRight_eq_div_pow]

/-- The bits of the face value of a sample in range: A, B, ITEM from bit 0 up, nothing above (R124). -/
theorem faceValue_bits {p : Sample} (h : fieldCheck p = 0) :
    (faceValue p).extractLsb' 3 5 = 0 ∧ (faceValue p).toNat ≤ 0x07 ∧
    ((faceValue p).getLsbD 0 = true ↔ p.a = 1) ∧ ((faceValue p).getLsbD 1 = true ↔ p.b = 1) ∧
    ((faceValue p).getLsbD 2 = true ↔ p.item = 1) := by
  have hv := faceValue_toNat h
  obtain ⟨ha, hb, hi, -⟩ := (fieldCheck_eq_zero_iff p).1 h
  have hle : (faceValue p).toNat ≤ 0x07 := by omega
  refine ⟨?_, hle, ?_, ?_, ?_⟩
  · apply BitVec.eq_of_toNat_eq
    rw [extractLsb'_toNat_eq_div_mod, Nat.div_eq_of_lt (by omega)]
    rfl
  all_goals
    rw [getLsbD_iff_toNat]
    omega

/-- The nibbles of the direction value of a sample in range: biased Y above biased X (R125). -/
theorem dirValue_nibbles {p : Sample} (h : fieldCheck p = 0) :
    (((dirValue p).extractLsb' 4 4).toNat : Int) = p.y + 7 ∧
    (((dirValue p).extractLsb' 0 4).toNat : Int) = p.x + 7 := by
  have hv := dirValue_toNat h
  obtain ⟨-, -, -, hx, hy, -⟩ := (fieldCheck_eq_zero_iff p).1 h
  rw [extractLsb'_toNat_eq_div_mod, extractLsb'_toNat_eq_div_mod]
  omega

theorem nibble_ne_0xF {v : BitVec 4} {z : Int} (hv : (v.toNat : Int) = z + 7) (hz : z ≤ 7) : v ≠ 0xF := by
  rintro rfl
  have : (15 : Int) = z + 7 := hv
  omega

/-- The stick at rest is stored as 0x77 (R125). -/
theorem dirValue_neutral {p : Sample} (hx : p.x = 0) (hy : p.y = 0) : dirValue p = 0x77 := by
  rw [dirValue, hx, hy]
  rfl

/-- Settles O18: the number of the face value is `faceValue_toNat`, its bits `faceValue_bits`; the nibbles of
the direction value are `dirValue_nibbles`, at most 14 as X and Y are at most 7 (`nibble_ne_0xF`). -/
theorem channelValuesOfASample : Obligations.ChannelValuesOfASample := by
  intro p h
  obtain ⟨hzero, hle, ha, hb, hitem⟩ := faceValue_bits h
  obtain ⟨hhigh, hlow⟩ := dirValue_nibbles h
  obtain ⟨-, -, -, hx, hy, -⟩ := (fieldCheck_eq_zero_iff p).1 h
  exact ⟨faceValue_toNat h, hzero, hle, ha, hb, hitem, hhigh, hlow, nibble_ne_0xF hhigh hy.2,
    nibble_ne_0xF hlow hx.2, dirValue_neutral⟩

end Sys2Proof.Machine
end

section
/-! PROOFS. The run-length encoder (spec/42_rle.md): RleStep on its own channel, the round trip, the chunked
maximal blocks, the bytes of an entry, and the encoder's invariant over every step. -/

namespace Sys2Proof.Machine

/-! ### RleStep touches its own channel only -/

/-- Updates of different channels may be done in either order (R150). -/
theorem setCh_comm {c d : Chan} (h : c ≠ d) (x y : Channel) (s : State) :
    (s.setCh d y).setCh c x = (s.setCh c x).setCh d y := by
  cases c <;> cases d
  case face.face | dir.dir | trick.trick => exact absurd rfl h
  all_goals rfl

/-- RleSteps on different channels may be done in either order (R150). -/
theorem rleStep_comm {c d : Chan} (h : c ≠ d) (v w : Byte) (s : State) :
    rleStep c v (rleStep d w s) = rleStep d w (rleStep c v s) := by
  rw [rleStep, rleStep_ch_of_ne h.symm, rleStep, setCh_comm h]
  rw [rleStep, rleStep_ch_of_ne h, rleStep]

/-- Settles O23: the cases are the branches of R141, the bound is `rleStep_curCnt_le`; on the state each channel
is its own field, and two of them are independent (`rleStep_ch_of_ne`, `rleStep_comm`). -/
theorem rleStepSeedsExtendsOrSeals : Obligations.RleStepSeedsExtendsOrSeals := by
  refine ⟨fun M v ch hM => ⟨fun h0 => if_pos h0, fun h0 hv hlt => (if_neg h0).trans (if_pos ⟨hv, hlt⟩), ?_,
    rleStep_curCnt_le hM v⟩, fun s v => ⟨rfl, rfl, rfl⟩, fun s c v => rleStep_ch c v s,
    fun s c d v w hcd => ⟨rleStep_ch_of_ne hcd v s, rleStep_comm hcd v w s⟩⟩
  intro h0 hseal
  have hextend : ¬ (v = ch.curVal ∧ ch.curCnt < M) := fun ⟨hv, hlt⟩ => hseal.elim (· hv) hlt.not_ge
  exact (if_neg h0).trans (if_neg hextend)

/-! ### The round trip -/

/-- Presenting values one after another appends them to what the channel stands for (R144). -/
theorem foldl_rleStep_values (M : Nat) (vs : List Byte) (ch : Channel) :
    expand (vs.foldl (fun ch v => ch.rleStep M v) ch).closeRun.sealed = expand ch.closeRun.sealed ++ vs := by
  induction vs generalizing ch with
  | nil => simp
  | cons v vs ih => rw [List.foldl_cons, ih, rleStep_values, List.append_assoc, List.singleton_append]

/-- Valid pushes in ACCEPT append the values they project to what each channel stands for (R144). -/
theorem pushAll_expand {s : State} {os : List Operands} (hs : s.ctl = .accept) (hos : ∀ o ∈ os, o.valid) :
    ∃ t, pushAll os s = .next t ∧ t.ctl = .accept ∧
      t.frames.toNat = min (s.frames.toNat + os.length) 0xFFFFFFFF ∧
      ∀ c, expand (t.ch c).closeRun.sealed = expand (s.ch c).closeRun.sealed ++ channelInput c os := by
  obtain ⟨t, hpush, hctl, -, -, -, -, -, -, hframes, hch⟩ := pushAll_valid hs hos
  exact ⟨t, hpush, hctl, hframes, fun c => by rw [hch c, foldl_rleStep_values]⟩

/-- Settles O25: the pushes fold RleStep over the projected values, which appends those values to the expansion
(`pushAll_expand`); the expansion of an empty channel is empty. -/
theorem pushesRoundTrip : Obligations.PushesRoundTrip := by
  refine ⟨fun s os => pushAll_expand, fun s os hs hos hempty => ?_⟩
  obtain ⟨t, hpush, -, -, hexpand⟩ := pushAll_expand hs hos
  refine ⟨t, hpush, fun c => ?_⟩
  rw [hexpand c, hempty c]
  rfl

/-! ### Maximal blocks -/

/-- One more value in front: the only block, the first block longer by one, or a new block of another value. -/
theorem blocks_cons_cases (v : Byte) (vs : List Byte) :
    (blocks vs = [] ∧ blocks (v :: vs) = [(v, 1)]) ∨
    (∃ n rest, blocks vs = (v, n) :: rest ∧ blocks (v :: vs) = (v, n + 1) :: rest) ∨
    (∃ w n rest, v ≠ w ∧ blocks vs = (w, n) :: rest ∧ blocks (v :: vs) = (v, 1) :: (w, n) :: rest) := by
  cases hb : blocks vs with
  | nil => exact .inl ⟨rfl, by simp [blocks, hb]⟩
  | cons b rest =>
    obtain ⟨w, n⟩ := b
    by_cases hv : v = w
    · subst hv
      exact .inr (.inl ⟨n, rest, rfl, by simp [blocks, hb]⟩)
    · exact .inr (.inr ⟨w, n, rest, hv, rfl, by simp [blocks, hb, hv]⟩)

/-- No block is empty (R145). -/
theorem blocks_pos (vs : List Byte) : ∀ b ∈ blocks vs, 1 ≤ b.2 := by
  induction vs with
  | nil => simp [blocks]
  | cons v vs ih =>
    rcases blocks_cons_cases v vs with ⟨-, h⟩ | ⟨n, rest, hb, h⟩ | ⟨w, n, rest, -, hb, h⟩
    · simp [h]
    · rw [hb] at ih
      simpa [h] using fun w m hm => ih (w, m) (List.mem_cons_of_mem _ hm)
    · rw [hb] at ih
      rw [h]
      exact List.forall_mem_cons.2 ⟨le_rfl, ih⟩

/-- The blocks written out one after another are the sequence (R145). -/
theorem blocks_flatMap_replicate (vs : List Byte) :
    (blocks vs).flatMap (fun b => List.replicate b.2 b.1) = vs := by
  induction vs with
  | nil => rfl
  | cons v vs ih =>
    rcases blocks_cons_cases v vs with ⟨hb, h⟩ | ⟨n, rest, hb, h⟩ | ⟨w, n, rest, -, hb, h⟩ <;>
      rw [hb] at ih <;> rw [h]
    · simpa using ih
    · simpa [List.replicate_succ] using ih
    · simpa using ih

/-- Blocks are maximal: neighbours have different values (R145). -/
theorem blocks_isChain (vs : List Byte) : (blocks vs).IsChain (fun b d => b.1 ≠ d.1) := by
  induction vs with
  | nil => exact .nil
  | cons v vs ih =>
    rcases blocks_cons_cases v vs with ⟨-, h⟩ | ⟨n, rest, hb, h⟩ | ⟨w, n, rest, hv, hb, h⟩
    · rw [h]
      exact List.isChain_singleton _
    · rw [hb, List.isChain_cons] at ih
      rw [h, List.isChain_cons]
      exact ih
    · rw [hb] at ih
      rw [h]
      exact .cons_cons hv ih

/-- A block of `n` values takes `ceil(n / 255)` entries (R145). -/
theorem blockEntries_length (b : Byte × Nat) : (blockEntries b).length = (b.2 + 254) / 255 := by
  unfold blockEntries
  split
  · simp
    omega
  · simp
    omega

/-- However a sequence is cut into blocks, an entry stands for at most 255 of its values (R145). -/
theorem flatMap_replicate_length_le (bs : List (Byte × Nat)) :
    (bs.flatMap (fun b => List.replicate b.2 b.1)).length ≤ 255 * (bs.flatMap blockEntries).length := by
  induction bs with
  | nil => simp
  | cons b bs ih =>
    simp only [List.flatMap_cons, List.length_append, List.length_replicate, blockEntries_length]
    omega

/-- A channel fed `n` values holds at least `n / 255` entries, rounded up (R145). -/
theorem length_le_encodedRuns (vs : List Byte) : vs.length ≤ 255 * (encodedRuns vs).length := by
  have h := flatMap_replicate_length_le (blocks vs)
  rwa [blocks_flatMap_replicate] at h

/-- Settles O26: the encoder yields the chunked blocks (`foldl_rleStep_sealed`, an induction over the sequence);
the blocks are the maximal ones (`blocks_pos`, `blocks_flatMap_replicate`, `blocks_isChain`) and their entries are
counted by `blockEntries_length` and `length_le_encodedRuns`. -/
theorem channelsHoldChunkedMaximalBlocks : Obligations.ChannelsHoldChunkedMaximalBlocks := by
  intro vs
  have hlength := length_le_encodedRuns vs
  exact ⟨foldl_rleStep_sealed vs, fun b hb => ⟨blocks_pos vs b hb, blockEntries_length b⟩,
    blocks_flatMap_replicate vs, blocks_isChain vs, by omega⟩

/-! ### The bytes of an entry -/

/-- OvfNibble above 255, as a quotient modulo 16 (R148). -/
theorem ovfNibble_of_gt {n : Nat} (h : n > 255) : ovfNibble n = ((n - 255) / 256) % 16 := by
  rw [ovfNibble, if_pos h, Nat.shiftRight_eq_div_pow]
  exact Nat.and_two_pow_sub_one_eq_mod _ 4

/-- A count that a byte holds is read back from its byte (R146). -/
theorem ofNat_byte_toNat_of_le {n : Nat} (h : n ≤ 255) : (BitVec.ofNat 8 n).toNat = n := by
  rw [BitVec.toNat_ofNat]
  omega

/-- Settles O27: the bytes are those of `entryBytes`; their numbers are `ofNat_byte_toNat_of_le` and, for the value
byte of T, `nibble_value_toNat`, as OvfNibble fits in a nibble (`ovfNibble_lt`). -/
theorem entriesSerializeToTwoBytes : Obligations.EntriesSerializeToTwoBytes := by
  refine ⟨⟨rfl, rfl, rfl⟩, fun e _ hcount => ⟨_, ofNat_byte_toNat_of_le hcount, rfl⟩, fun e hvalue => ?_,
    fun n => ovfNibble_of_gt, fun n => ovfNibble_of_le⟩
  exact ⟨_, _, rfl, nibble_value_toNat hvalue (ovfNibble_lt _), ofNat_byte_toNat_of_le (min_le_right _ _)⟩

/-! ### The encoder's invariant -/

/-- The invariant speaks of the channels, FRAMES and the control state only; a move out of ACCEPT and FINISHING, or
from one to the other, asks nothing new. -/
theorem EncoderInv_of_same_encode {s t : State} (h : EncoderInv s) (hch : ∀ c, t.ch c = s.ch c)
    (hframes : t.frames = s.frames)
    (hopen : t.ctl = .accept ∨ t.ctl = .finishing → s.ctl = .accept ∨ s.ctl = .finishing)
    (hidle : t.ctl = .idle → s.ctl = .idle) : EncoderInv t := by
  obtain ⟨hchannels, hzero⟩ := h
  refine ⟨fun c => ?_, fun ht => by rw [hframes, hzero (hidle ht)]⟩
  rw [hch c, hframes]
  obtain ⟨hgood, htotal, hempty⟩ := hchannels c
  exact ⟨hgood, htotal, fun ht => hempty (hopen ht)⟩

/-- The invariant holds where nothing is encoded (R100, R101). -/
theorem EncoderInv_of_empty {t : State} (hch : ∀ c, t.ch c = Channel.empty) (hframes : t.frames = 0) :
    EncoderInv t := by
  refine ⟨fun c => ?_, fun _ => hframes⟩
  rw [hch c, hframes]
  exact ⟨Good_empty c, rfl, fun _ _ => rfl⟩

/-- Sealing keeps the invariant, if it ends the taking of samples (R183). -/
theorem EncoderInv_of_sealed {s t : State} (h : EncoderInv s) (hch : ∀ c, t.ch c = (s.ch c).closeRun)
    (hframes : t.frames = s.frames) (hctl : t.ctl = .done ∨ t.ctl = .error) : EncoderInv t := by
  obtain ⟨hchannels, -⟩ := h
  refine ⟨fun c => ?_, fun ht => by simp [ht] at hctl⟩
  obtain ⟨hgood, htotal, -⟩ := hchannels c
  rw [hch c, hframes, closeRun_total]
  exact ⟨Good_closeRun hgood, htotal, fun ht => by rcases hctl with h | h <;> simp [h] at ht⟩

/-- An accepted sample keeps the invariant: it counts one more in FRAMES and in every channel (R120, R127). -/
theorem acceptSample_keeps_EncoderInv {s : State} {p : Sample} (h : EncoderInv s) (hctl : s.ctl = .accept)
    (hp : fieldCheck p = 0) : EncoderInv (acceptSample p s) := by
  obtain ⟨hchannels, -⟩ := h
  refine ⟨fun c => ?_, fun ht => by simp [hctl] at ht⟩
  obtain ⟨hgood, htotal, hempty⟩ := hchannels c
  have hframes : (acceptSample p s).frames = sat32 (s.frames.toNat + 1) := by simp
  rw [acceptSample_ch, rleStep_total, hframes, htotal, sat32_add_one]
  exact ⟨Good_rleStep hgood (channelValue_ok hp c) (hempty (.inl hctl)), rfl,
    fun _ h0 => absurd h0 (rleStep_curCnt_pos _ _ _).ne'⟩

theorem EncoderInv_beginEncode (P : Params) (s : State) : EncoderInv (beginEncode P s) := by
  rcases beginEncode_cases P s with ⟨-, h⟩ | ⟨-, h⟩ <;> rw [h] <;>
    exact EncoderInv_of_empty (fun c => by cases c <;> rfl) rfl

theorem EncoderInv_resetBlock (s : State) : EncoderInv (resetBlock s) :=
  EncoderInv_of_empty (fun c => by cases c <;> rfl) rfl

theorem flagIllegal_keeps_EncoderInv {s : State} (h : EncoderInv s) : EncoderInv (flagIllegal s) :=
  EncoderInv_of_same_encode h (ch_flagIllegal s) rfl id id

theorem afterEvent_keeps_EncoderInv {s : State} (h : EncoderInv s) (rest : List BusEvent) :
    EncoderInv (s.afterEvent rest) :=
  EncoderInv_of_same_encode h (ch_afterEvent rest s) rfl id id

theorem ch_raiseError (e : ErrorInfo) (s : State) (c : Chan) : (raiseError e s).ch c = s.ch c := by
  cases c <;> rfl

theorem raiseError_keeps_EncoderInv {s : State} (h : EncoderInv s) (e : ErrorInfo) :
    EncoderInv (raiseError e s) :=
  EncoderInv_of_same_encode h (ch_raiseError e s) rfl (fun ht => by simp at ht) (fun ht => by simp at ht)

theorem requestFinish_keeps_EncoderInv {s : State} (h : EncoderInv s) (hctl : s.ctl = .accept) :
    EncoderInv (requestFinish s) :=
  EncoderInv_of_same_encode h (fun c => by cases c <;> rfl) rfl (fun _ => .inl hctl) (fun ht => by simp at ht)

/-- Every command keeps the invariant. -/
theorem exec_keeps_EncoderInv {i : Instr} {s t : State} (h : EncoderInv s) (ht : exec i s = .next t) :
    EncoderInv t := by
  rcases exec_cases i s with
    ⟨-, he⟩ | ⟨-, -, he⟩ | ⟨-, hctl, hp, he⟩ | ⟨-, -, -, he⟩ | ⟨-, hctl, he⟩ | ⟨-, -, he⟩ <;>
    rw [he] at ht <;> cases ht
  · exact EncoderInv_resetBlock s
  · exact EncoderInv_beginEncode params s
  · exact acceptSample_keeps_EncoderInv h hctl hp
  · exact raiseError_keeps_EncoderInv h _
  · exact requestFinish_keeps_EncoderInv h hctl
  · exact flagIllegal_keeps_EncoderInv h

/-- The engine keeps the invariant: it seals the channels or leaves them, and samples are no longer taken. -/
theorem engineStep_keeps_EncoderInv {s : State} (h : EncoderInv s) (P : Params) : EncoderInv (engineStep P s) := by
  rcases engineStep_cases P s with ⟨-, he⟩ | ⟨-, -, he⟩ | ⟨-, -, he⟩ <;> rw [he]
  · exact raiseError_keeps_EncoderInv h _
  · exact EncoderInv_of_sealed h (fun c => by rw [ch_raiseError, sealChannels_ch]) rfl (.inr rfl)
  · exact EncoderInv_of_sealed h (fun c => by cases c <;> rfl) rfl (.inl rfl)

/-- Every step keeps the invariant. -/
theorem step_keeps_EncoderInv {s t : State} (h : EncoderInv s) (ht : step s = .next t) : EncoderInv t := by
  cases step_cases ht with
  | engine _ _ _ heq => exact heq ▸ engineStep_keeps_EncoderInv h params
  | command i rest _ _ _ heq => exact exec_keeps_EncoderInv (afterEvent_keeps_EncoderInv h rest) heq
  | hardwareReset rest _ _ _ heq => exact heq ▸ EncoderInv_resetBlock _
  | operand r v rest _ _ _ _ _ _ heq =>
    subst heq
    exact EncoderInv_of_same_encode h (fun c => (ch_writeOperand r v _ c).trans (ch_afterEvent rest s c))
      (by simp) (by simp) (by simp)
  | illegal rest _ _ _ heq => exact heq ▸ flagIllegal_keeps_EncoderInv (afterEvent_keeps_EncoderInv h rest)
  | outside env _ _ _ heq =>
    subst heq
    exact EncoderInv_of_same_encode h (fun c => by cases c <;> rfl) rfl id id

/-- Under the invariant every sealed entry has a count in `1..255` (R143). -/
theorem sealed_count_bounds {s : State} (h : EncoderInv s) {c : Chan} {e : Entry} (he : e ∈ (s.ch c).sealed) :
    1 ≤ e.count ∧ e.count ≤ 255 := by
  obtain ⟨⟨-, hentries, -⟩, -, -⟩ := h.1 c
  have hclosed : e ∈ (s.ch c).closeRun.sealed := by
    rw [closeRun_sealed]
    exact List.mem_append_left _ he
  obtain ⟨hpos, hmax, -⟩ := hentries e hclosed
  exact ⟨hpos, by rwa [maxRun_eq] at hmax⟩

/-- Settles O56: every case of the step keeps the invariant (`step_keeps_EncoderInv`), the accepted sample being
the one that changes a run (`acceptSample_keeps_EncoderInv`); the bounds are `sealed_count_bounds`. -/
theorem stepKeepsEncoderInv : Obligations.StepKeepsEncoderInv :=
  ⟨fun _ _ => step_keeps_EncoderInv, fun _ h _ _ => sealed_count_bounds h⟩

end Sys2Proof.Machine
end

section
/-! PROOFS. The bytes of the header, and what header and checksum depend on (spec/43_header.md). -/

namespace Sys2Proof.Machine

/-! ### A field shifted into a header byte -/

/-- A field of at most eight bits, shifted up inside a byte. -/
theorem setWidth_shiftLeft_toNat {n : Nat} (hn : n ≤ 8) (v : BitVec n) (k : Nat) :
    (v.setWidth 8 <<< k : Byte).toNat = v.toNat * 2 ^ k % 2 ^ 8 := by
  rw [BitVec.toNat_shiftLeft, BitVec.toNat_setWidth_of_le hn, Nat.shiftLeft_eq]

/-- `HI2` takes the upper two of the character's six bits (R162). -/
theorem charHi_hi2_toNat (ch : BitVec 6) : (charHi .hi2 ch).toNat = ch.toNat / 16 := by
  have hch := ch.isLt
  rw [charHi, extractLsb'_toNat_eq_div_mod]
  omega

/-- `LOW2` takes the lower two of the character's six bits (R162). -/
theorem charHi_low2_toNat (ch : BitVec 6) : (charHi .low2 ch).toNat = ch.toNat % 4 := by
  rw [charHi, extractLsb'_toNat_eq_div_mod]
  omega

/-- The drift bit is the complement of `manual`, wherever `DRIFT_BIT` puts it (R164). -/
theorem driftByte_toNat (manual : BitVec 1) (k : Fin 8) :
    ((1#1 - manual).setWidth 8 <<< k.val : Byte).toNat = (1 - manual.toNat) * 2 ^ k.val := by
  revert manual k; decide

/-! ### The bytes of the header -/

/-- Bytes 0x00 to 0x03 (R165). -/
theorem headerByte_magic (P : Params) (m : RaceMeta) (k : Fin 4) : headerByte P m k.val = P.magic[k] :=
  dif_pos k.isLt

/-- Byte 0x07 (R161). -/
theorem headerByte_track_toNat (P : Params) (m : RaceMeta) :
    (headerByte P m 0x07).toNat = 4 * m.track.toNat := by
  have hm := m.track.isLt
  rw [show headerByte P m 0x07 = m.track.setWidth 8 <<< 2 from rfl, setWidth_shiftLeft_toNat (by decide)]
  omega

/-- Byte 0x08, for either split (R162). -/
theorem headerByte_vehicle_toNat (P : Params) (m : RaceMeta) :
    (headerByte P m 0x08).toNat = 4 * m.vehicle.toNat + (charHi P.charSplit m.character).toNat :=
  shifted_field_toNat m.vehicle (charHi P.charSplit m.character)

/-- Byte 0x09 (R163). -/
theorem headerByte_character_toNat (P : Params) (m : RaceMeta) :
    (headerByte P m 0x09).toNat = 16 * (m.character.toNat % 16) := by
  rw [show headerByte P m 0x09 = m.character.setWidth 8 <<< 4 from rfl, setWidth_shiftLeft_toNat (by decide)]
  omega

/-- Byte 0x0D (R164). -/
theorem headerByte_drift_toNat (P : Params) (m : RaceMeta) :
    (headerByte P m 0x0D).toNat = (1 - m.manual.toNat) * 2 ^ P.driftBit.val :=
  driftByte_toNat m.manual P.driftBit

/-- Every other byte (R166). -/
theorem headerByte_eq_zero {P : Params} {m : RaceMeta} {i : Nat} (hmagic : 0x03 < i) (h7 : i ≠ 0x07)
    (h8 : i ≠ 0x08) (h9 : i ≠ 0x09) (hD : i ≠ 0x0D) : headerByte P m i = 0 := by
  rw [headerByte, dif_neg (by omega), if_neg h7, if_neg h8, if_neg h9, if_neg hD]

/-- Outside its fields the header reads 0, past its end included. -/
theorem headerBuild_getD_eq_zero {P : Params} {m : RaceMeta} {i : Nat} (hmagic : 0x03 < i)
    (hgap : i < 0x07 ∨ 0x09 < i ∧ i < 0x0D ∨ 0x0D < i) : (headerBuild P m).getD i 0 = 0 := by
  by_cases hi : i < 0x88
  · rw [headerBuild_getD P m hi]
    exact headerByte_eq_zero hmagic (by omega) (by omega) (by omega) (by omega)
  · exact getD_of_length_le 0 (by rw [headerBuild_length]; omega)

/-- Settles O33: the list holds `headerByte` at every index below 0x88 (`headerBuild_getD`), so each clause is
the value of one byte: `headerByte_magic`, `headerByte_track_toNat` and so on; byte 0x08 splits by `charHi`. -/
theorem headerBytesOfTheMetadata : Obligations.HeaderBytesOfTheMetadata := by
  refine ⟨⟨rfl, rfl⟩, fun P m => ⟨headerBuild_length P m, fun k => ?_, ?_, fun hsplit => ?_, fun hsplit => ?_,
    ?_, ?_, fun i => headerBuild_getD_eq_zero⟩⟩
  · rw [headerBuild_getD P m (by omega), headerByte_magic]
  · rw [headerBuild_getD P m (by decide), headerByte_track_toNat]
  · rw [headerBuild_getD P m (by decide), headerByte_vehicle_toNat, hsplit, charHi_hi2_toNat]
  · rw [headerBuild_getD P m (by decide), headerByte_vehicle_toNat, hsplit, charHi_low2_toNat]
  · rw [headerBuild_getD P m (by decide), headerByte_character_toNat]
  · rw [headerBuild_getD P m (by decide), headerByte_drift_toNat]

/-! ### What a successful engine step outputs -/

/-- An engine step that ends in DONE wrote the image of the sealed channels and its checksum, and the section
fitted (R181, R185, R193). -/
theorem engineStep_output_of_done {P : Params} {s : State} (h : (engineStep P s).ctl = .done) :
    (∀ i, (engineStep P s).img.read i = (imageBytes P (sealChannels s)).getD i 0) ∧
    (engineStep P s).crc = sectionCrc P (sealChannels s) ∧
    (sectionBytes (sealChannels s)).length ≤ P.cap := by
  rcases engineStep_cases P s with ⟨-, he⟩ | ⟨-, -, he⟩ | ⟨-, hfits, he⟩
  · simp [he] at h
  · simp [he] at h
  · rw [he]
    exact ⟨Memory.read_load_zero _, rfl, hfits⟩

/-- The header of a successful engine step is that of the latched metadata (R168). -/
theorem engineStep_header {P : Params} {s : State} (h : (engineStep P s).ctl = .done) {i : Nat}
    (hi : i < 0x88) : (engineStep P s).img.read i = (headerBuild P s.latched).getD i 0 := by
  obtain ⟨himg, -, -⟩ := engineStep_output_of_done h
  simp only [himg, imageBytes_header hi, sealChannels_fields]

/-- The checksum bytes of a successful engine step are those of its CRC register (R191). -/
theorem engineStep_checksum_bytes {P : Params} {s : State} (h : (engineStep P s).ctl = .done) (i : Nat) :
    (engineStep P s).img.read (0x8E + P.cap + i) = (be32 (engineStep P s).crc).getD i 0 := by
  obtain ⟨himg, hcrc, hfits⟩ := engineStep_output_of_done h
  rw [himg, imageBytes_crc hfits, hcrc]

/-- The checksum depends on the sealed entries only, not on the metadata (R190). -/
theorem sectionCrc_congr {P : Params} {s t : State} (h : ∀ c, (s.ch c).sealed = (t.ch c).sealed) :
    sectionCrc P s = sectionCrc P t := by
  simp only [sectionCrc, sectionBytes, serialize, h]

/-! ### Equal metadata, equal samples -/

/-- Two successful engine steps with the same latched metadata write the same header (R168). -/
theorem engineStep_header_congr {P : Params} {s t : State} (hs : (engineStep P s).ctl = .done)
    (ht : (engineStep P t).ctl = .done) (hlatched : s.latched = t.latched) {i : Nat} (hi : i < 0x88) :
    (engineStep P s).img.read i = (engineStep P t).img.read i := by
  rw [engineStep_header hs hi, engineStep_header ht hi, hlatched]

/-- Two successful engine steps that seal the same entries give the same checksum (R168). -/
theorem engineStep_checksum_congr {P : Params} {s t : State} (hs : (engineStep P s).ctl = .done)
    (ht : (engineStep P t).ctl = .done) (hsealed : ∀ c, (s.ch c).closeRun.sealed = (t.ch c).closeRun.sealed) :
    (engineStep P s).crc = (engineStep P t).crc ∧
    ∀ i, (engineStep P s).img.read (0x8E + P.cap + i) = (engineStep P t).img.read (0x8E + P.cap + i) := by
  obtain ⟨-, hcrcs, -⟩ := engineStep_output_of_done hs
  obtain ⟨-, hcrct, -⟩ := engineStep_output_of_done ht
  have hcrc : (engineStep P s).crc = (engineStep P t).crc := by
    rw [hcrcs, hcrct]
    exact sectionCrc_congr fun c => by rw [sealChannels_ch, sealChannels_ch, hsealed c]
  exact ⟨hcrc, fun i => by rw [engineStep_checksum_bytes hs, engineStep_checksum_bytes ht, hcrc]⟩

/-- The channel values come from the sample words; the tag plays no part (R83, R124 to R126). -/
theorem channelInput_congr {os os' : List Operands}
    (h : os.map (fun o => (o.lo, o.hi)) = os'.map (fun o => (o.lo, o.hi))) (c : Chan) :
    channelInput c os = channelInput c os' := by
  have hwords : ∀ l : List Operands, channelInput c l =
      (l.map fun o => (o.lo, o.hi)).map fun w => channelValue (sampleOf w.1 w.2) c := by
    intro l
    rw [List.map_map]
    rfl
  rw [hwords, hwords, h]

/-- An encode that ends in DONE ends by an engine step on the metadata and the runs it was given. -/
theorem encodeRun_engineStep_of_done {os : List Operands} {s t : State} (hs : s.ctl ≠ .finishing)
    (h : encodeRun os s = .next t) (ht : t.ctl = .done) :
    ∃ u, t = engineStep params u ∧ u.latched = s.metaOperands ∧
      ∀ c, (u.ch c).closeRun.sealed = encodedRuns (channelInput c os) := by
  obtain ⟨hlegal, hvalid⟩ := encodeRun_done hs h ht
  obtain ⟨u, hu, hlatched, -, -, -, -, hruns⟩ := encodeRun_valid hs hlegal hvalid
  rw [h] at hu
  exact ⟨u, Host.Outcome.next.inj hu, hlatched, hruns⟩

/-- Settles O38: a successful encode ends by an engine step (`encodeRun_engineStep_of_done`), whose header is
determined by the latched metadata (`engineStep_header_congr`) and whose checksum is determined by the sealed
entries (`engineStep_checksum_congr`), which the samples determine (`channelInput_congr`). -/
theorem headerAndChecksumAreIndependent : Obligations.HeaderAndChecksumAreIndependent := by
  constructor
  · intro s1 s2 t1 t2 os1 os2 hs1 hs2 h1 h2 hd1 hd2
    obtain ⟨u1, rfl, hlatched1, hruns1⟩ := encodeRun_engineStep_of_done hs1 h1 hd1
    obtain ⟨u2, rfl, hlatched2, hruns2⟩ := encodeRun_engineStep_of_done hs2 h2 hd2
    constructor
    · intro htrack hvehicle hchar hmanual i
      have hlatched : u1.latched = u2.latched := by
        rw [hlatched1, hlatched2, State.metaOperands, State.metaOperands, htrack, hvehicle, hchar, hmanual]
      exact engineStep_header_congr hd1 hd2 hlatched
    · intro hsamples
      obtain ⟨hcrc, hbytes⟩ := engineStep_checksum_congr hd1 hd2 fun c => by
        rw [hruns1, hruns2, channelInput_congr hsamples]
      exact ⟨hcrc, fun i _ => hbytes i⟩
  · intro s1 s2 t1 t2 hturn1 hturn2 h1 h2 hd1 hd2
    obtain rfl := Host.Outcome.next.inj ((step_engine hturn1).symm.trans h1)
    obtain rfl := Host.Outcome.next.inj ((step_engine hturn2).symm.trans h2)
    refine ⟨fun hlatched i => engineStep_header_congr hd1 hd2 hlatched, fun hch => ?_⟩
    obtain ⟨hcrc, hbytes⟩ := engineStep_checksum_congr hd1 hd2 fun c => by rw [hch]
    exact ⟨hcrc, fun i _ => hbytes i⟩

end Sys2Proof.Machine
end

section
/-! PROOFS. The engine's step on a pending FINISH and the checksum (spec/44_section_checksum.md). -/

namespace Sys2Proof.Machine

/-! ### The regions of the image after a successful engine step -/

/-- The bytes of the input-section header are those of the three entry counts (R187). -/
theorem engineStep_counts {P : Params} {s : State} (h : (engineStep P s).ctl = .done) {i : Nat} (hi : i < 6) :
    (engineStep P s).img.read (0x88 + i) =
      (be16 s.faceCh.nRuns ++ be16 s.dirCh.nRuns ++ be16 s.trickCh.nRuns).getD i 0 := by
  obtain ⟨himg, -, -⟩ := engineStep_output_of_done h
  simp only [himg, imageBytes_counts hi, inputHeader, sealChannels_fields, closeRun_sealed_length]

/-- The three words of the input-section header are the run counts, if each fits 16 bits (R187). -/
theorem engineStep_counts_toNat {P : Params} {s : State} (h : (engineStep P s).ctl = .done)
    (hruns : s.totalRuns < 2 ^ 16) :
    let t := engineStep P s
    (t.img.read 0x88).toNat * 256 + (t.img.read 0x89).toNat = s.faceCh.nRuns ∧
    (t.img.read 0x8A).toNat * 256 + (t.img.read 0x8B).toNat = s.dirCh.nRuns ∧
    (t.img.read 0x8C).toNat * 256 + (t.img.read 0x8D).toNat = s.trickCh.nRuns := by
  have hsum : s.totalRuns = s.faceCh.nRuns + s.dirCh.nRuns + s.trickCh.nRuns := rfl
  have hbyte (i : Nat) (hi : i < 6) := engineStep_counts h hi
  refine ⟨?_, ?_, ?_⟩
  · rw [hbyte 0 (by decide), hbyte 1 (by decide)]
    exact be16_toNat (by omega)
  · rw [hbyte 2 (by decide), hbyte 3 (by decide)]
    exact be16_toNat (by omega)
  · rw [hbyte 4 (by decide), hbyte 5 (by decide)]
    exact be16_toNat (by omega)

/-- The `CAP` bytes from 0x8E on are the padded section (R186). -/
theorem engineStep_padSection {P : Params} {s : State} (h : (engineStep P s).ctl = .done) {i : Nat}
    (hi : i < P.cap) :
    (engineStep P s).img.read (0x8E + i) = (padSection P (sectionBytes (sealChannels s))).getD i 0 := by
  obtain ⟨himg, -, hfits⟩ := engineStep_output_of_done h
  rw [himg, imageBytes_section hfits hi]

/-- From the section's end on the padded section reads 0 (R186). -/
theorem padSection_getD_of_le {P : Params} {sec : List Byte} {i : Nat} (h : sec.length ≤ i) :
    (padSection P sec).getD i 0 = 0 := by
  rw [padSection, getD_append_right 0 h, List.getD_eq_getElem?_getD, List.getElem?_replicate]
  split <;> rfl

/-- Past the file's end no byte is written (R191, R195). -/
theorem engineStep_past_end {P : Params} {s : State} (h : (engineStep P s).ctl = .done) {i : Nat}
    (hi : 0x92 + P.cap ≤ i) : (engineStep P s).img.read i = 0 := by
  obtain ⟨himg, -, hfits⟩ := engineStep_output_of_done h
  rw [himg, getD_of_length_le 0 (by rwa [imageBytes_length hfits])]

/-- The four checksum bytes are the CRC register, most significant byte first (R191). -/
theorem engineStep_checksum_toNat {P : Params} {s : State} (h : (engineStep P s).ctl = .done) :
    let t := engineStep P s
    t.crc.toNat =
      (t.img.read (0x8E + P.cap)).toNat * 2 ^ 24 + (t.img.read (0x8E + P.cap + 1)).toNat * 2 ^ 16 +
        (t.img.read (0x8E + P.cap + 2)).toNat * 2 ^ 8 + (t.img.read (0x8E + P.cap + 3)).toNat := by
  have hbyte := engineStep_checksum_bytes h
  have hfirst : (engineStep P s).img.read (0x8E + P.cap) = (be32 (engineStep P s).crc).getD 0 0 := hbyte 0
  simp only [hfirst, hbyte]
  exact (be32_toNat _).symm

/-- Beside the channels only the image, the CRC and the control state change (R181, R193). -/
theorem engineStep_eq_of_done {P : Params} {s : State} (h : (engineStep P s).ctl = .done) :
    engineStep P s =
      { sealChannels s with ctl := .done, img := (engineStep P s).img, crc := (engineStep P s).crc } := by
  rcases engineStep_cases P s with ⟨-, he⟩ | ⟨-, -, he⟩ | ⟨-, -, he⟩
  · simp [he] at h
  · simp [he] at h
  · rw [he]

/-- Settles O32: the step is a successful engine step (`engineStep_done_iff`), whose image holds one region after
another: `engineStep_header`, `engineStep_counts_toNat`, `engineStep_padSection`, `engineStep_checksum_toNat` and
`engineStep_past_end`. The counts fit 16 bits because `CAP` is at most 131070. -/
theorem engineWritesTheWholeImage : Obligations.EngineWritesTheWholeImage := by
  intro s hturn hframes hfits
  have hdone : (engineStep params s).ctl = .done := (engineStep_done_iff params s).2 ⟨hframes, hfits⟩
  have hlength := sectionBytes_sealChannels_length s
  obtain ⟨-, hcrc, -⟩ := engineStep_output_of_done hdone
  have hruns : s.totalRuns < 2 ^ 16 := by
    have := params_cap_bounds.2
    omega
  obtain ⟨hface, hdir, htrick⟩ := engineStep_counts_toNat hdone hruns
  refine ⟨engineStep params s, step_engine hturn, engineStep_eq_of_done hdone, fun i => engineStep_header hdone,
    hface, hdir, htrick, hlength, fun i hi => ?_, fun i hlo hcap => ?_, ?_, engineStep_checksum_toNat hdone,
    fun i => engineStep_past_end hdone⟩
  · rw [engineStep_padSection hdone (by omega), padSection, getD_append_left 0 (by omega)]
  · rw [engineStep_padSection hdone hcap, padSection_getD_of_le (by omega)]
  · rw [hcrc, sectionCrc, padSection, hlength]

/-! ### An empty recording -/

/-- The engine step on no accepted sample (R182). -/
theorem engineStep_of_no_frame (P : Params) {s : State} (h : s.frames = 0) :
    engineStep P s = raiseError { code := .emptyRecording } s := if_pos h

/-- An accepted sample leaves FRAMES above 0: it saturates and never wraps (R127, R182). -/
theorem acceptSample_frames_ne_zero (p : Sample) (s : State) : (acceptSample p s).frames ≠ 0 := by
  simp only [acceptSample_fields]
  exact sat32_succ_ne_zero _

/-- Settles O30: the engine only raises the error (`engineStep_of_no_frame`), which leaves the image and the
channels alone (`raiseError_fields`, `ch_raiseError`); FRAMES never counts back to 0
(`acceptSample_frames_ne_zero`). -/
theorem engineRejectsAnEmptyRecording : Obligations.EngineRejectsAnEmptyRecording := by
  refine ⟨fun s hturn hframes => ?_, fun s p => acceptSample_frames_ne_zero p s⟩
  have hstep : step s = .next (raiseError { code := .emptyRecording } s) := by
    rw [step_engine hturn, engineStep_of_no_frame params hframes]
  refine ⟨hstep, fun t ht => ?_⟩
  obtain rfl := Host.Outcome.next.inj (hstep.symm.trans ht)
  exact ⟨fun himg => by simpa only [raiseError_fields] using himg, fun hch c => (ch_raiseError _ s c).trans (hch c)⟩

/-! ### The check values of CRC-32 -/

/-- Settles O34: the bit-serial definition evaluated on three fixed inputs, at most 72 bits long. -/
theorem crcCheckValues : Obligations.CrcCheckValues := by
  refine ⟨?_, ?_, ?_⟩
  · decide +kernel
  · decide
  · decide

end Sys2Proof.Machine
end

section
/-! PROOFS. The reset values and the reset input (spec/70_reset_and_hazards.md). -/

namespace Sys2Proof.Machine

/-! ### The values after reset -/

/-- No channel has an entry at reset, so OVF reads 0 for every capacity (R32, R250). -/
theorem ovf_reset (P : Params) : State.reset.ovf P = false :=
  decide_eq_false (Nat.not_lt_zero P.cap)

/-- STATUS reads 0 at reset, for every parameter set (R35, R250). -/
theorem status_reset (P : Params) : State.reset.status P = 0 := by
  rw [State.status, ovf_reset]
  rfl

/-- CAPACITY reads CAP: every legal CAP fits 32 bits (R5, R34). -/
theorem readReg_capacity_toNat (s : State) : (readReg params s .capacity).toNat = params.cap := by
  have hcap := params_cap_bounds.2
  rw [readReg, BitVec.toNat_ofNat]
  omega

/-- FILE_SIZE reads `0x92 + CAP`, which fits 32 bits for every legal CAP (R5, R10, R34). -/
theorem readReg_fileSize_toNat (s : State) : (readReg params s .fileSize).toNat = 0x92 + params.cap := by
  have hcap := params_cap_bounds.2
  rw [readReg, BitVec.toNat_ofNat, fileSize]
  omega

/-! ### The reset input -/

theorem exec_reset (s : State) : exec .reset s = .next (resetBlock s) := rfl

/-- The step that takes the reset input is the RESET command on what is left of the events (R250). -/
theorem step_hardwareReset {s : State} {rest : List BusEvent} (h : s.engineTurn = false)
    (hb : s.env.bus = .hardwareReset :: rest) : step s = exec .reset (s.afterEvent rest) := by
  rw [step_event h hb, exec_reset, performEvent]

/-- No FINISH is pending in a reset block, whatever the schedule holds (R20b, R250). -/
theorem engineTurn_resetBlock (s : State) : (resetBlock s).engineTurn = false :=
  engineTurn_false_of_ctl (by rw [(resetBlock_fields s).1]; decide)

/-- Settles O12: the table is `State.reset` by computation, and the registers that depend on CAP are
`status_reset`, `readReg_capacity_toNat` and `readReg_fileSize_toNat`. The reset input runs RESET
(`step_hardwareReset`), which leaves IDLE, where it is not the engine's turn (`engineTurn_resetBlock`). -/
theorem hardwareResetActsAsResetCommand : Obligations.HardwareResetActsAsResetCommand := by
  refine ⟨⟨rfl, Memory.read_clear, status_reset params, readReg_capacity_toNat _, readReg_fileSize_toNat _⟩,
    fun s rest hturn hbus => ?_⟩
  have hstep : step s = exec .reset (s.afterEvent rest) := step_hardwareReset hturn hbus
  refine ⟨hstep, fun t ht => ?_⟩
  obtain rfl : resetBlock (s.afterEvent rest) = t := Host.Outcome.next.inj (hstep.symm.trans ht)
  exact ⟨rfl, engineTurn_resetBlock _⟩

end Sys2Proof.Machine
end

section
/-! PROOFS. What each command does and leaves unchanged (spec/40_control.md, spec/41_sample_input.md,
spec/44_section_checksum.md section 1). -/

namespace Sys2Proof.Machine

/-! ### RESET and illegal commands -/

/-- A command that R104 does not allow only flags ILLEGAL. -/
theorem exec_of_not_legal {i : Instr} {s : State} (h : legalIn i s.ctl = false) :
    exec i s = .next (flagIllegal s) := by
  cases i with
  | reset => cases h
  | start => exact if_pos (by simpa [legalIn] using h)
  | push => exact if_pos (by simpa [legalIn] using h)
  | finish => exact if_pos (by simpa [legalIn] using h)

/-- Settles O11: RESET answers `resetBlock` (`exec_reset`), which is the table of R250 by computation. -/
theorem resetCommandRestoresEveryElement : Obligations.ResetCommandRestoresEveryElement := exec_reset

/-- Settles O15: each of the three is a command that R104 does not allow (`exec_of_not_legal`); RESET clears
ILLEGAL. -/
theorem illegalCommandsOnlyFlagIllegal : Obligations.IllegalCommandsOnlyFlagIllegal := by
  intro s
  exact ⟨fun h => exec_of_not_legal (by simp [legalIn, h]), fun h => exec_of_not_legal (by simp [legalIn, h]),
    fun h => exec_of_not_legal (by simp [legalIn, h]), _, exec_reset s, rfl⟩

/-! ### START -/

/-- Legal META registers lose nothing at the widths of the latch (R28, R111). -/
theorem metaOperands_toNat {s : State} (h : s.metaLegal) :
    s.metaOperands.track.toNat = s.metaTrack.toNat ∧ s.metaOperands.vehicle.toNat = s.metaVehicle.toNat ∧
    s.metaOperands.character.toNat = s.metaChar.toNat ∧ s.metaOperands.manual.toNat = s.metaManual.toNat := by
  obtain ⟨htrack, hvehicle, hchar, hmanual⟩ := h
  simp only [State.metaOperands, BitVec.toNat_setWidth]
  omega

/-- Settles O13: the premises are `State.metaLegal`, so START latches the META registers (`exec_start_legal`),
which the latch holds as numbers (`metaOperands_toNat`). -/
theorem startAcceptsLegalMetadata : Obligations.StartAcceptsLegalMetadata := by
  intro s hs htrack hvehicle hchar hmanual
  have hlegal : s.metaLegal := ⟨htrack, hvehicle, hchar, hmanual⟩
  exact ⟨s.metaOperands, exec_start_legal hs hlegal, metaOperands_toNat hlegal⟩

/-- A legal START clears the encode and its output; the operand registers and ILLEGAL stay (R101). -/
@[simp] theorem beginEncode_fields (P : Params) (s : State) :
    (beginEncode P s).illegal = s.illegal ∧ (beginEncode P s).sampleLo = s.sampleLo ∧
    (beginEncode P s).sampleHi = s.sampleHi ∧ (beginEncode P s).sampleTag = s.sampleTag ∧
    (beginEncode P s).metaTrack = s.metaTrack ∧ (beginEncode P s).metaVehicle = s.metaVehicle ∧
    (beginEncode P s).metaChar = s.metaChar ∧ (beginEncode P s).metaManual = s.metaManual ∧
    (beginEncode P s).faceCh = Channel.empty ∧ (beginEncode P s).dirCh = Channel.empty ∧
    (beginEncode P s).trickCh = Channel.empty ∧ (beginEncode P s).frames = 0 ∧
    (beginEncode P s).img = Memory.clear ∧ (beginEncode P s).crc = 0 ∧ (beginEncode P s).env = s.env := by
  rcases beginEncode_cases P s with ⟨-, h⟩ | ⟨-, h⟩ <;> rw [h] <;>
    exact ⟨rfl, rfl, rfl, rfl, rfl, rfl, rfl, rfl, rfl, rfl, rfl, rfl, rfl, rfl, rfl⟩

/-- START outside FINISHING (R101). -/
theorem exec_start_of_not_busy {s : State} (h : s.ctl ≠ .finishing) :
    exec .start s = .next (beginEncode params s) := if_neg h

/-- Settles O16: in FINISHING START only flags ILLEGAL (`exec_of_not_legal`), and elsewhere it is `beginEncode`,
whose frame is `beginEncode_fields`; a cleared image reads 0. -/
theorem startFrame : Obligations.StartFrame := by
  intro s t ht
  by_cases hbusy : s.ctl = .finishing
  · rw [exec_of_not_legal (by simp [legalIn, hbusy])] at ht
    cases ht
    simp [hbusy]
  · rw [exec_start_of_not_busy hbusy] at ht
    cases ht
    simp [hbusy]

/-! ### PUSH -/

/-- PUSH of a sample that passes FieldCheck accepts it (R120). -/
theorem exec_push_in_range {s : State} (hs : s.ctl = .accept) (hok : fieldCheck s.sample = 0) :
    exec .push s = .next (acceptSample s.sample s) := by
  rw [exec, execPush, if_neg (not_not.2 hs), if_neg (not_not.2 hok)]

/-- Settles O17: the sample passes FieldCheck (`fieldCheck_eq_zero_iff`), so PUSH accepts it
(`exec_push_in_range`), and the channel values are the numbers of R124 to R126. -/
theorem pushFeedsTheThreeChannels : Obligations.PushFeedsTheThreeChannels := by
  intro s hs ha ha' hb hb' hi hi' hx hx' hy hy' ht ht'
  have hok : fieldCheck s.sample = 0 :=
    (fieldCheck_eq_zero_iff _).2 ⟨⟨ha, ha'⟩, ⟨hb, hb'⟩, ⟨hi, hi'⟩, ⟨hx, hx'⟩, ⟨hy, hy'⟩, ⟨ht, ht'⟩⟩
  refine ⟨faceValue s.sample, dirValue s.sample, trickValue s.sample, exec_push_in_range hs hok,
    faceValue_toNat hok, ?_, ?_⟩
  · rw [dirValue_toNat hok]
    omega
  · rw [trickValue_toNat hok]
    omega

/-- Settles O22: outside ACCEPT PUSH only flags ILLEGAL; in ACCEPT it accepts the sample, which keeps the control
state and the errors, or rejects it, which keeps the channels and FRAMES. The frames are `flagIllegal_fields`,
`acceptSample_fields` and `rejectSample_fields`. -/
theorem pushFrame : Obligations.PushFrame := by
  intro s t ht
  by_cases hs : s.ctl = .accept
  · by_cases hok : fieldCheck s.sample = 0
    · rw [exec_push_in_range hs hok] at ht
      cases ht
      simp [hs]
    · rw [exec_push_malformed hs hok] at ht
      cases ht
      simp [hs]
  · rw [exec_of_not_legal (by simp [legalIn, hs])] at ht
    cases ht
    simp [hs]

/-! ### FINISH, host half -/

/-- FINISH in ACCEPT hands over to the engine (R180). -/
theorem exec_finish_accept {s : State} (hs : s.ctl = .accept) : exec .finish s = .next (requestFinish s) :=
  if_neg (not_not.2 hs)

/-- Settles O60: FINISH is `requestFinish` in ACCEPT (`requestFinish_fields`) and only flags ILLEGAL elsewhere
(`flagIllegal_fields`). -/
theorem finishFrame : Obligations.FinishFrame := by
  intro s t ht
  by_cases hs : s.ctl = .accept
  · rw [exec_finish_accept hs] at ht
    cases ht
    simp [hs]
  · rw [exec_of_not_legal (by simp [legalIn, hs])] at ht
    cases ht
    simp [hs]

end Sys2Proof.Machine
end

section
/-! PROOFS. STATUS and its fields (spec/10_state.md section 6). -/

namespace Sys2Proof.Machine

/-- A bit vector appended below another, as a number. -/
theorem append_toNat {m n : Nat} (x : BitVec m) (y : BitVec n) : (x ++ y).toNat = x.toNat * 2 ^ n + y.toNat := by
  rw [BitVec.toNat_append, ← Nat.shiftLeft_add_eq_or_of_lt y.isLt, Nat.shiftLeft_eq]

/-- STATUS as the sum of its fields; the reserved bits add nothing (R35). -/
theorem status_toNat (P : Params) (s : State) :
    (s.status P).toNat =
      s.errFields.toNat * 2 ^ 16 + s.err.code.toNat * 2 ^ 8 + s.illegal.toNat * 2 ^ 5 + (s.ovf P).toNat * 2 ^ 4 +
        s.busy.toNat * 2 ^ 3 + s.ctl.code.toNat := by
  simp only [State.status, append_toNat, BitVec.toNat_ofBool, BitVec.toNat_ofNat]
  omega

theorem busy_eq_true_iff (s : State) : s.busy = true ↔ s.ctl = .finishing := by
  rw [State.busy, beq_iff_eq]

theorem ovf_eq_true_iff (P : Params) (s : State) : s.ovf P = true ↔ 2 * s.totalRuns > P.cap := by
  rw [State.ovf, decide_eq_true_eq]

theorem ovf_eq_false_iff (P : Params) (s : State) : s.ovf P = false ↔ 2 * s.totalRuns ≤ P.cap := by
  rw [State.ovf, decide_eq_false_iff_not, Nat.not_lt]

/-- A field of a bit vector is known by its number. -/
theorem extractLsb'_eq {n lo len : Nat} {v : BitVec n} {x : BitVec len} (h : v.toNat / 2 ^ lo % 2 ^ len = x.toNat) :
    v.extractLsb' lo len = x :=
  BitVec.eq_of_toNat_eq (by rw [extractLsb'_toNat_eq_div_mod, h])

/-- The fields of STATUS, each at its place (R35). -/
theorem status_fields (P : Params) (s : State) :
    (s.status P).extractLsb' 0 3 = s.ctl.code ∧ (s.status P).getLsbD 3 = s.busy ∧
    (s.status P).getLsbD 4 = s.ovf P ∧ (s.status P).getLsbD 5 = s.illegal ∧
    (s.status P).extractLsb' 6 2 = 0 ∧ (s.status P).extractLsb' 8 3 = s.err.code ∧
    (s.status P).extractLsb' 11 5 = 0 ∧ (s.status P).extractLsb' 16 6 = s.errFields ∧
    (s.status P).extractLsb' 22 10 = 0 := by
  have hsum := status_toNat P s
  have hctl := s.ctl.code.isLt
  have herr := s.err.code.isLt
  have hfields := s.errFields.isLt
  have hbusy := s.busy.toNat_lt
  have hovf := (s.ovf P).toNat_lt
  have hillegal := s.illegal.toNat_lt
  refine ⟨extractLsb'_eq (by omega), ?_, ?_, ?_, extractLsb'_eq (show _ = 0 by omega), extractLsb'_eq (by omega),
    extractLsb'_eq (show _ = 0 by omega), extractLsb'_eq (by omega), extractLsb'_eq (show _ = 0 by omega)⟩
  all_goals
    rw [Bool.eq_iff_iff, getLsbD_iff_toNat, ← Bool.toNat_eq_one]
    omega

/-- Settles O39: the fields stand at their places in the sum that STATUS is (`status_fields`), and the codes are
those of the tables of R21 and R220. -/
theorem statusShowsItsFields : Obligations.StatusShowsItsFields := by
  intro P s
  obtain ⟨hctl, hbusy, hovf, hillegal, h76, herr, h1511, hfields, h3122⟩ := status_fields P s
  refine ⟨?_, ?_, ?_, hillegal, h76, ?_, h1511, hfields, h3122⟩
  · rw [hctl]
    cases s.ctl <;> rfl
  · rw [hbusy, busy_eq_true_iff]
  · rw [hovf, ovf_eq_true_iff, State.totalRuns]
  · rw [herr]
    cases s.err <;> rfl

/-- Settles O29: FINISH answers `requestFinish` (`exec_finish_accept`), which changes the control state and the
two schedule fields only; STATUS then shows FINISHING and BUSY (`status_fields`). -/
theorem finishHandsOverToTheEngine : Obligations.FinishHandsOverToTheEngine := by
  intro s hs
  obtain ⟨hctl, hbusy, -⟩ := status_fields params (requestFinish s)
  exact ⟨requestFinish s, exec_finish_accept hs, ⟨_, _, rfl⟩, hctl, hbusy, fun _ => rfl⟩

end Sys2Proof.Machine
end

section
/-! PROOFS. Command words, the register map and the host's saturation (spec/30_encoding.md, spec/10_state.md
section 6). -/

namespace Sys2Proof.Machine

/-- An OP field that is not 1 to 4 is 0 or at least 5 (R81, R82). -/
theorem opField_reserved {op : Byte} (h1 : op ≠ 0x01) (h2 : op ≠ 0x02) (h3 : op ≠ 0x03) (h4 : op ≠ 0x04) :
    op = 0 ∨ 5 ≤ op.toNat := by
  simp only [ne_eq, BitVec.toNat_eq, BitVec.ofNat_eq_ofNat, BitVec.toNat_ofNat] at *
  omega

/-- The two reasons a word selects no command (R82). -/
theorem decode_of_ne_encode {w : Word} (h : ∀ i, w ≠ encode i) :
    (zeroField w ≠ 0 ∧ decode w = .error (.zeroFieldSet (zeroField w))) ∨
    (zeroField w = 0 ∧ (opField w = 0 ∨ 5 ≤ (opField w).toNat) ∧ decode w = .error (.reservedOp (opField w))) := by
  by_cases hz : zeroField w = 0
  · have hop (i : Instr) : opField w ≠ opField (encode i) := fun ho =>
      h i (eq_of_fields (hz.trans (by cases i <;> rfl)) ho)
    have h1 : opField w ≠ 0x01 := hop .reset
    have h2 : opField w ≠ 0x02 := hop .start
    have h3 : opField w ≠ 0x03 := hop .push
    have h4 : opField w ≠ 0x04 := hop .finish
    refine .inr ⟨hz, opField_reserved h1 h2 h3 h4, ?_⟩
    rw [decode, if_neg (not_not.2 hz), if_neg h1, if_neg h2, if_neg h3, if_neg h4]
  · exact .inl ⟨hz, if_pos hz⟩

/-- Settles O2: acceptance is `decode_eq_ok_iff`, the named rejections are `decode_of_ne_encode`. -/
theorem decodeAcceptsExactlyTheEncodedWords : Obligations.DecodeAcceptsExactlyTheEncodedWords :=
  ⟨fun _ _ => decode_eq_ok_iff, fun _ => decode_of_ne_encode⟩

/-- Settles O3: the table is that of `Reg.offset` and `Reg.access`, row by row; that no other offset holds a
register is `regAt_eq_some_iff`, the range is `Reg.offset_toNat`. -/
theorem registerMapIsOneToOne : Obligations.RegisterMapIsOneToOne :=
  ⟨fun r => by cases r <;> rfl, fun _ _ => regAt_eq_some_iff, Reg.offset_toNat⟩

/-- Settles O5: PUSH extracts the saturated integers (`sampleOf_pack`), and each range of FieldCheck lies inside
-128..127, so saturation keeps the verdict on its field (`outside_saturateRaw`). -/
theorem saturationKeepsTheVerdict : Obligations.SaturationKeepsTheVerdict := by
  intro r
  have hbutton := @outside_saturateRaw 0 1 (by decide) (by decide)
  have hstick := @outside_saturateRaw (-7) 7 (by decide) (by decide)
  have htrick := @outside_saturateRaw 0 4 (by decide) (by decide)
  simp only [sampleOf_pack, fieldCheck, hbutton, hstick, htrick]

end Sys2Proof.Machine
end

section
/-! PROOFS. Sealing, the section's boundaries, and the longest recording that fits (spec/42_rle.md,
spec/44_section_checksum.md section 1). -/

namespace Sys2Proof.Machine

/-- Settles O24: sealing is by cases on the open run; the run count is kept (`closeRun_nRuns`) and is then the
number of entries (`closeRun_sealed_length`). -/
theorem sealAppendsTheOpenRun : Obligations.SealAppendsTheOpenRun :=
  fun ch => ⟨fun hopen => if_pos hopen, fun hnone => if_neg (by omega), closeRun_nRuns ch, closeRun_sealed_length ch⟩

/-- What a channel within its bounds has sealed fits the two bytes of an entry: counts at most 255, and trick
codes in a nibble (R143, R147). -/
theorem sealed_fits_bytes {c : Chan} {ch : Channel} (h : ch.Good c) :
    (∀ e ∈ ch.sealed, e.count ≤ 255) ∧ (Config.ovfMode c = .nibble → ∀ e ∈ ch.sealed, e.value.toNat ≤ 15) := by
  obtain ⟨-, hentries, -⟩ := h
  have hbounds (e : Entry) (he : e ∈ ch.sealed) :=
    hentries e (by rw [closeRun_sealed]; exact List.mem_append_left _ he)
  refine ⟨fun e he => ?_, fun hmode e he => ?_⟩
  · obtain ⟨-, hmax, -⟩ := hbounds e he
    rwa [maxRun_eq] at hmax
  · obtain ⟨-, -, hvalue⟩ := hbounds e he
    cases c with
    | face | dir => cases hmode
    | trick => exact le_trans hvalue (by decide)

/-- The bytes of a channel within its bounds read back as its sealed entries (R146, R147). -/
theorem readEntries_serialize {s : State} {c : Chan} (h : (s.ch c).Good c) :
    readEntries (Config.ovfMode c) (serialize c s) = (s.ch c).sealed := by
  obtain ⟨hcount, hvalue⟩ := sealed_fits_bytes h
  exact readEntries_serializeEntries _ _ hcount hvalue

/-- A channel takes two bytes an entry (R184). -/
theorem serialize_length (c : Chan) (s : State) : (serialize c s).length = 2 * (s.ch c).sealed.length :=
  serializeEntries_length _ _

/-- Settles O28: the section is the three channels' bytes one after another, each of the length its count gives
(`serialize_length`), so taking and dropping by the counts gives those bytes, which read back as the entries
(`readEntries_serialize`). -/
theorem sectionIsDelimitedByTheCounts : Obligations.SectionIsDelimitedByTheCounts := by
  intro s hgood
  have hface : (serialize .face s).length = 2 * s.faceCh.sealed.length := serialize_length .face s
  have hdir : (serialize .dir s).length = 2 * s.dirCh.sealed.length := serialize_length .dir s
  have hsection : sectionBytes s = serialize .face s ++ (serialize .dir s ++ serialize .trick s) :=
    List.append_assoc _ _ _
  refine ⟨sectionBytes_length s, ?_, ?_, ?_⟩
  · rw [hsection, List.take_left' hface]
    exact readEntries_serialize (hgood .face)
  · rw [hsection, List.drop_left' hface, List.take_left' hdir]
    exact readEntries_serialize (hgood .dir)
  · rw [hsection, ← List.drop_drop, List.drop_left' hface, List.drop_left' hdir]
    exact readEntries_serialize (hgood .trick)

/-- Settles O59: each channel holds all the counted samples, at most 255 a run (`total_le_of_Good`), so more than
`255 * 21845` of them take at least 21846 runs on each of the three channels; twice their number exceeds every
legal CAP. -/
theorem longRecordingsOverflow : Obligations.LongRecordingsOverflow := by
  intro s hinv hlong
  have hruns (c : Chan) : 21846 ≤ (s.ch c).nRuns := by
    obtain ⟨hgood, hframes, -⟩ := hinv.1 c
    have htotal := total_le_of_Good hgood
    rw [hframes, sat32_toNat] at hlong
    omega
  have hface : 21846 ≤ s.faceCh.nRuns := hruns .face
  have hdir : 21846 ≤ s.dirCh.nRuns := hruns .dir
  have htrick : 21846 ≤ s.trickCh.nRuns := hruns .trick
  have hcap := params_cap_bounds.2
  rw [ovf_eq_true_iff, State.totalRuns]
  omega

end Sys2Proof.Machine
end

section
/-! PROOFS. An overflowing section, and whole encodes: the ghost file, the overflow verdict, determinism
(spec/44_section_checksum.md). -/

namespace Sys2Proof.Machine

/-! ### An overflowing section -/

/-- The engine step on more section bytes than fit (R185). -/
theorem engineStep_of_overflow {P : Params} {s : State} (hframes : s.frames ≠ 0) (hover : 2 * s.totalRuns > P.cap) :
    engineStep P s =
      raiseError { code := .inputSectionOverflow, bytes := sat32 (2 * s.totalRuns) } (sealChannels s) := by
  have hlength := sectionBytes_sealChannels_length s
  rcases engineStep_cases P s with ⟨hzero, -⟩ | ⟨-, -, he⟩ | ⟨-, hfits, -⟩
  · exact absurd hzero hframes
  · rw [he, hlength]
  · omega

/-- Settles O31: the engine seals the channels and raises the error (`engineStep_of_overflow`); sealing keeps the
run counts (`engineStep_frame`). -/
theorem engineRejectsAnOverflowingSection : Obligations.EngineRejectsAnOverflowingSection := by
  intro s hturn hframes hover
  have he := engineStep_of_overflow hframes hover
  obtain ⟨-, -, -, -, -, -, -, -, -, -, -, -, -, hruns⟩ := engineStep_frame params s
  rw [he] at hruns
  refine ⟨_, (step_engine hturn).trans (congrArg _ he), rfl, hruns, fun a => ?_, ?_⟩ <;> simp

/-! ### What a whole encode of valid samples ends in -/

/-- What the channels seal to is the section of the recording (R145, R184). -/
theorem sectionBytes_of_runs {u : State} {os : List Operands}
    (hruns : ∀ c, (u.ch c).closeRun.sealed = encodedRuns (channelInput c os)) :
    sectionBytes (sealChannels u) = recordingSection os := by
  simp only [sectionBytes, serialize, sealChannels_ch, hruns]
  rfl

/-- The image of the sealed channels is the ghost file of the recording (R195). -/
theorem imageBytes_of_runs {u : State} {os : List Operands} (P : Params)
    (hruns : ∀ c, (u.ch c).closeRun.sealed = encodedRuns (channelInput c os)) :
    imageBytes P (sealChannels u) = ghostFile P u.latched os := by
  have hface : u.faceCh.closeRun.sealed = encodedRuns (channelInput .face os) := hruns .face
  have hdir : u.dirCh.closeRun.sealed = encodedRuns (channelInput .dir os) := hruns .dir
  have htrick : u.trickCh.closeRun.sealed = encodedRuns (channelInput .trick os) := hruns .trick
  simp only [imageBytes, sectionCrc, inputHeader, sectionBytes_of_runs hruns, sealChannels_fields, hface, hdir,
    htrick]
  rfl

/-- A recording with a sample counts a frame: FRAMES saturates and never wraps (R30). -/
theorem frames_ne_zero_of_ne_nil {f : Word} {os : List Operands} (hf : f.toNat = min os.length 0xFFFFFFFF)
    (hos : os ≠ []) : f ≠ 0 := by
  have := List.length_pos_iff.2 hos
  rintro rfl
  simp only [BitVec.ofNat_eq_ofNat, BitVec.toNat_ofNat] at hf
  omega

/-- An encode of no sample ends in EMPTY_RECORDING with the output clear (R182). -/
theorem encodeRun_empty {s : State} (hs : s.ctl ≠ .finishing) (hm : s.metaLegal) :
    ∃ t, encodeRun [] s = .next t ∧ t.ctl = .error ∧ t.err = .emptyRecording ∧ t.img = Memory.clear ∧
      t.crc = 0 := by
  obtain ⟨u, hu, -, himg, hcrc, -, hframes, -⟩ := encodeRun_valid hs hm (os := []) (by simp)
  have hzero : u.frames = 0 := BitVec.eq_of_toNat_eq hframes
  refine ⟨_, hu, ?_⟩
  rw [engineStep_of_no_frame params hzero]
  exact ⟨rfl, rfl, himg, hcrc⟩

/-- An encode of valid samples whose section does not fit ends in INPUT_SECTION_OVERFLOW with the output clear
(R185). -/
theorem encodeRun_overflow {os : List Operands} {s : State} (hs : s.ctl ≠ .finishing) (hm : s.metaLegal)
    (ho : ∀ o ∈ os, o.valid) (hover : (recordingSection os).length > params.cap) :
    ∃ t, encodeRun os s = .next t ∧ t.ctl = .error ∧ t.err = .inputSectionOverflow ∧
      t.errBytes = sat32 (recordingSection os).length ∧ t.img = Memory.clear ∧ t.crc = 0 := by
  obtain ⟨u, hu, -, himg, hcrc, -, hframes, hruns⟩ := encodeRun_valid hs hm ho
  have hlength : (recordingSection os).length = 2 * u.totalRuns := by
    rw [← sectionBytes_of_runs hruns, sectionBytes_sealChannels_length]
  have hos : os ≠ [] := by
    rintro rfl
    exact absurd hover (Nat.not_lt_zero _)
  refine ⟨_, hu, ?_⟩
  rw [engineStep_of_overflow (frames_ne_zero_of_ne_nil hframes hos) (hlength ▸ hover), hlength]
  exact ⟨rfl, rfl, rfl, himg, hcrc⟩

/-- An encode of at least one valid sample whose section fits ends in DONE, without an error, with the ghost file
as its image (R195). -/
theorem encodeRun_fits {os : List Operands} {s : State} (hs : s.ctl ≠ .finishing) (hm : s.metaLegal) (hos : os ≠ [])
    (ho : ∀ o ∈ os, o.valid) (hfits : (recordingSection os).length ≤ params.cap) :
    ∃ t, encodeRun os s = .next t ∧ t.ctl = .done ∧ t.err = .none ∧
      (∀ i, t.img.read i = (ghostFile params s.metaOperands os).getD i 0) ∧
      t.crc = crc32 (padSection params (recordingSection os)) ∧ t.frames.toNat = min os.length 0xFFFFFFFF := by
  obtain ⟨u, hu, hlatched, -, -, herr, hframes, hruns⟩ := encodeRun_valid hs hm ho
  have hlength : (recordingSection os).length = 2 * u.totalRuns := by
    rw [← sectionBytes_of_runs hruns, sectionBytes_sealChannels_length]
  have hdone : (engineStep params u).ctl = .done :=
    (engineStep_done_iff params u).2 ⟨frames_ne_zero_of_ne_nil hframes hos, hlength ▸ hfits⟩
  obtain ⟨himg, hcrc, -⟩ := engineStep_output_of_done hdone
  have hkeeps := engineStep_eq_of_done hdone
  refine ⟨_, hu, hdone, ?_, fun i => ?_, ?_, ?_⟩
  · rw [hkeeps]
    exact herr
  · rw [himg, imageBytes_of_runs params hruns, hlatched]
  · rw [hcrc, sectionCrc, sectionBytes_of_runs hruns]
  · rw [hkeeps]
    exact hframes

/-- The ghost file fills the image exactly, if the section fits (R10, R195). -/
theorem ghostFile_length {P : Params} (m : RaceMeta) {os : List Operands}
    (hfits : (recordingSection os).length ≤ P.cap) : (ghostFile P m os).length = 0x92 + P.cap := by
  simp only [ghostFile, List.length_append, headerBuild_length, be16_length, be32_length, padSection_length hfits]
  omega

/-- Settles O35: the encode ends in the engine's success (`encodeRun_fits`), whose image is the ghost file because
the channels seal to the chunked maximal blocks (`encodeRun_valid`, `imageBytes_of_runs`). -/
theorem encodeYieldsTheGhostFile : Obligations.EncodeYieldsTheGhostFile := by
  intro s os hs hm hos ho hfits
  obtain ⟨t, ht, hctl, -, himg, hcrc, hframes⟩ := encodeRun_fits hs hm hos ho hfits
  exact ⟨t, ht, hctl, himg, ghostFile_length _ hfits, hcrc, hframes⟩

/-- An encode of valid samples overflows exactly if its section does not fit: every other encode is empty or
fits. -/
theorem encodeRun_overflows_iff {s t : State} {os : List Operands} (hs : s.ctl ≠ .finishing) (hm : s.metaLegal)
    (ho : ∀ o ∈ os, o.valid) (ht : encodeRun os s = .next t) :
    t.err = .inputSectionOverflow ↔ (recordingSection os).length > params.cap := by
  by_cases hover : (recordingSection os).length > params.cap
  · obtain ⟨u, hu, -, herr, -⟩ := encodeRun_overflow hs hm ho hover
    obtain rfl := Host.Outcome.next.inj (ht.symm.trans hu)
    exact iff_of_true herr hover
  · obtain ⟨u, hu, herr⟩ : ∃ u, encodeRun os s = .next u ∧ u.err ≠ .inputSectionOverflow := by
      by_cases hos : os = []
      · obtain ⟨u, hu, -, herr, -⟩ := encodeRun_empty hs hm
        exact ⟨u, hos ▸ hu, by rw [herr]; decide⟩
      · obtain ⟨u, hu, -, herr, -⟩ := encodeRun_fits hs hm hos ho (Nat.not_lt.1 hover)
        exact ⟨u, hu, by rw [herr]; decide⟩
    obtain rfl := Host.Outcome.next.inj (ht.symm.trans hu)
    exact iff_of_false herr hover

/-- Settles O36: the three ends of an encode of valid samples are `encodeRun_overflow`, `encodeRun_fits` and
`encodeRun_empty`; together they give the equivalence (`encodeRun_overflows_iff`). -/
theorem encodeOverflowsExactlyBeyondCapacity : Obligations.EncodeOverflowsExactlyBeyondCapacity := by
  refine ⟨fun s os hs hm ho hover => ?_, fun s os hs hm hos ho hfits => ?_,
    fun s t os => encodeRun_overflows_iff, fun s hs hm => ?_⟩
  · obtain ⟨t, ht, hctl, herr, hbytes, himg, hcrc⟩ := encodeRun_overflow hs hm ho hover
    exact ⟨t, ht, hctl, herr, by rw [hbytes, sat32_toNat], fun i => by rw [himg, Memory.read_clear], hcrc⟩
  · obtain ⟨t, ht, hctl, herr, -⟩ := encodeRun_fits hs hm hos ho hfits
    exact ⟨t, ht, hctl, herr⟩
  · obtain ⟨t, ht, hctl, herr, himg, hcrc⟩ := encodeRun_empty hs hm
    exact ⟨t, ht, hctl, herr, fun i => by rw [himg, Memory.read_clear], hcrc⟩

/-! ### Determinism -/

/-- Two states agree on the encode in progress and on its outcome: everything an encode determines.  They may
differ in the operand registers, ILLEGAL, the context of an error and the model's own fields. -/
structure SameEncode (s t : State) : Prop where
  ctl : s.ctl = t.ctl
  err : s.err = t.err
  latched : s.latched = t.latched
  face : s.faceCh = t.faceCh
  dir : s.dirCh = t.dirCh
  trick : s.trickCh = t.trickCh
  frames : s.frames = t.frames
  img : s.img = t.img
  crc : s.crc = t.crc

section
variable {s s' t t' : State}

theorem SameEncode.ch (h : SameEncode s s') (c : Chan) : s.ch c = s'.ch c := by
  cases c with
  | face => exact h.face
  | dir => exact h.dir
  | trick => exact h.trick

theorem sameEncode_withOperands (h : SameEncode s s') (o o' : Operands) :
    SameEncode (s.withOperands o) (s'.withOperands o') :=
  ⟨h.ctl, h.err, h.latched, h.face, h.dir, h.trick, h.frames, h.img, h.crc⟩

theorem sameEncode_flagIllegal (h : SameEncode s s') : SameEncode (flagIllegal s) (flagIllegal s') :=
  ⟨h.ctl, h.err, h.latched, h.face, h.dir, h.trick, h.frames, h.img, h.crc⟩

theorem sameEncode_raiseError (h : SameEncode s s') {e e' : ErrorInfo} (he : e.code = e'.code) :
    SameEncode (raiseError e s) (raiseError e' s') :=
  ⟨rfl, he, h.latched, h.face, h.dir, h.trick, h.frames, h.img, h.crc⟩

theorem sameEncode_requestFinish (h : SameEncode s s') : SameEncode (requestFinish s) (requestFinish s') :=
  ⟨rfl, h.err, h.latched, h.face, h.dir, h.trick, h.frames, h.img, h.crc⟩

theorem sameEncode_sealChannels (h : SameEncode s s') : SameEncode (sealChannels s) (sealChannels s') :=
  ⟨h.ctl, h.err, h.latched, congrArg Channel.closeRun h.face, congrArg Channel.closeRun h.dir,
    congrArg Channel.closeRun h.trick, h.frames, h.img, h.crc⟩

theorem sameEncode_acceptSample (h : SameEncode s s') (p : Sample) :
    SameEncode (acceptSample p s) (acceptSample p s') := by
  constructor <;>
    simp only [acceptSample_fields, h.ctl, h.err, h.latched, h.face, h.dir, h.trick, h.frames, h.img, h.crc]

/-- START erases what went before: only the META registers matter (R101, R194). -/
theorem sameEncode_beginEncode (P : Params) (htrack : s.metaTrack = s'.metaTrack)
    (hvehicle : s.metaVehicle = s'.metaVehicle) (hchar : s.metaChar = s'.metaChar)
    (hmanual : s.metaManual = s'.metaManual) : SameEncode (beginEncode P s) (beginEncode P s') := by
  have hbad : s.metaBad P = s'.metaBad P := by
    rw [State.metaBad, State.metaBad, htrack, hvehicle, hchar, hmanual]
  have hmeta : s.metaOperands = s'.metaOperands := by
    rw [State.metaOperands, State.metaOperands, htrack, hvehicle, hchar, hmanual]
  rcases beginEncode_cases P s with ⟨hok, he⟩ | ⟨hok, he⟩ <;>
    rcases beginEncode_cases P s' with ⟨hok', he'⟩ | ⟨hok', he'⟩
  · rw [he, he', hmeta]
    constructor <;> rfl
  · exact absurd (hbad ▸ hok) hok'
  · exact absurd (hbad ▸ hok') hok
  · rw [he, he']
    constructor <;> rfl

/-- PUSH of equal samples keeps the agreement, whether they are accepted, rejected or illegal. -/
theorem sameEncode_push (h : SameEncode s s') (hsample : s.sample = s'.sample)
    (ht : exec .push s = .next t) (ht' : exec .push s' = .next t') : SameEncode t t' := by
  by_cases hctl : s.ctl = .accept
  · have hctl' : s'.ctl = .accept := h.ctl ▸ hctl
    by_cases hok : fieldCheck s.sample = 0
    · rw [exec_push_in_range hctl hok] at ht
      rw [exec_push_in_range hctl' (hsample ▸ hok), ← hsample] at ht'
      cases ht; cases ht'
      exact sameEncode_acceptSample h _
    · rw [exec_push_malformed hctl hok] at ht
      rw [exec_push_malformed hctl' (hsample ▸ hok)] at ht'
      cases ht; cases ht'
      exact sameEncode_raiseError h rfl
  · have hctl' : s'.ctl ≠ .accept := h.ctl ▸ hctl
    rw [exec_of_not_legal (by simp [legalIn, hctl])] at ht
    rw [exec_of_not_legal (by simp [legalIn, hctl'])] at ht'
    cases ht; cases ht'
    exact sameEncode_flagIllegal h

/-- Pushes of samples that differ at most in their tags keep the agreement. -/
theorem sameEncode_pushAll {os os' : List Operands}
    (hos : os.map (fun o => (o.lo, o.hi)) = os'.map (fun o => (o.lo, o.hi))) (h : SameEncode s s')
    (ht : pushAll os s = .next t) (ht' : pushAll os' s' = .next t') : SameEncode t t' := by
  induction os generalizing os' s s' with
  | nil =>
    obtain rfl : os' = [] := List.map_eq_nil_iff.1 hos.symm
    cases ht; cases ht'
    exact h
  | cons o os ih =>
    cases os' with
    | nil => cases hos
    | cons o' os' =>
      rw [List.map_cons, List.map_cons, List.cons.injEq, Prod.mk.injEq] at hos
      obtain ⟨⟨hlo, hhi⟩, hrest⟩ := hos
      have hsample : (s.withOperands o).sample = (s'.withOperands o').sample := by
        rw [State.sample, State.sample]
        simp only [withOperands_fields, hlo, hhi]
      obtain ⟨u, hu⟩ := exec_next .push (s.withOperands o)
      obtain ⟨u', hu'⟩ := exec_next .push (s'.withOperands o')
      have hsame := sameEncode_push (sameEncode_withOperands h o o') hsample hu hu'
      rw [pushAll, hu] at ht
      rw [pushAll, hu'] at ht'
      exact ih hrest hsame ht ht'

theorem sameEncode_finish (h : SameEncode s s') (ht : exec .finish s = .next t)
    (ht' : exec .finish s' = .next t') : SameEncode t t' := by
  by_cases hctl : s.ctl = .accept
  · rw [exec_finish_accept hctl] at ht
    rw [exec_finish_accept (h.ctl ▸ hctl)] at ht'
    cases ht; cases ht'
    exact sameEncode_requestFinish h
  · have hctl' : s'.ctl ≠ .accept := h.ctl ▸ hctl
    rw [exec_of_not_legal (by simp [legalIn, hctl])] at ht
    rw [exec_of_not_legal (by simp [legalIn, hctl'])] at ht'
    cases ht; cases ht'
    exact sameEncode_flagIllegal h

/-- The image and the checksum are functions of the latched metadata and the sealed entries (R194). -/
theorem sameEncode_engineStep (P : Params) (h : SameEncode s s') : SameEncode (engineStep P s) (engineStep P s') := by
  have hsealed := sameEncode_sealChannels h
  obtain ⟨himage, hcrc⟩ := imageBytes_congr (P := P) hsealed.latched fun c => congrArg Channel.sealed (hsealed.ch c)
  have hlength : (sectionBytes (sealChannels s)).length = (sectionBytes (sealChannels s')).length := by
    rw [sectionBytes_length, sectionBytes_length, hsealed.face, hsealed.dir, hsealed.trick]
  rcases engineStep_cases P s with ⟨hf, he⟩ | ⟨hf, hl, he⟩ | ⟨hf, hl, he⟩ <;>
    rcases engineStep_cases P s' with ⟨hf', he'⟩ | ⟨hf', hl', he'⟩ | ⟨hf', hl', he'⟩
  case inl.inl => exact he ▸ he' ▸ sameEncode_raiseError h rfl
  case inr.inl.inr.inl => exact he ▸ he' ▸ sameEncode_raiseError hsealed rfl
  case inr.inr.inr.inr =>
    rw [he, he', himage, hcrc]
    exact ⟨rfl, h.err, h.latched, hsealed.face, hsealed.dir, hsealed.trick, h.frames, rfl, rfl⟩
  case inl.inr.inl | inl.inr.inr => exact absurd (h.frames ▸ hf) hf'
  case inr.inl.inl | inr.inr.inl => exact absurd (h.frames ▸ hf') hf
  case inr.inl.inr.inr | inr.inr.inr.inl => omega

theorem sameEncode_engineSettles (h : SameEncode s s') : SameEncode (engineSettles s) (engineSettles s') := by
  by_cases hctl : s.ctl = .finishing
  · rw [engineSettles, engineSettles, if_pos hctl, if_pos (h.ctl ▸ hctl)]
    exact sameEncode_engineStep params h
  · rw [engineSettles, engineSettles, if_neg hctl, if_neg (h.ctl ▸ hctl)]
    exact h

end

/-- The four stages of an encode, by name. -/
theorem encodeRun_stages {os : List Operands} {s t : State} (hs : s.ctl ≠ .finishing)
    (ht : encodeRun os s = .next t) :
    ∃ pushed finished, pushAll os (beginEncode params s) = .next pushed ∧ exec .finish pushed = .next finished ∧
      t = engineSettles finished := by
  obtain ⟨pushed, hpushed⟩ := pushAll_next os (beginEncode params s)
  obtain ⟨finished, hfinished⟩ := exec_next .finish pushed
  refine ⟨pushed, finished, hpushed, hfinished, ?_⟩
  rw [encodeRun, exec_start_of_not_busy hs] at ht
  simp only [andThen, hpushed, hfinished] at ht
  exact (Host.Outcome.next.inj ht).symm

/-- Settles O37: START makes the two states agree on the encode (`sameEncode_beginEncode`), and the pushes, FINISH
and the engine's step keep the agreement. -/
theorem encodeIsDeterministic : Obligations.EncodeIsDeterministic := by
  intro s1 s2 t1 t2 os1 os2 hs1 hs2 htrack hvehicle hchar hmanual hos ht1 ht2
  obtain ⟨p1, f1, hp1, hf1, rfl⟩ := encodeRun_stages hs1 ht1
  obtain ⟨p2, f2, hp2, hf2, rfl⟩ := encodeRun_stages hs2 ht2
  have hstarted := sameEncode_beginEncode params htrack hvehicle hchar hmanual
  have hpushed := sameEncode_pushAll hos hstarted hp1 hp2
  have hsame := sameEncode_engineSettles (sameEncode_finish hpushed hf1 hf2)
  exact ⟨hsame.ctl, hsame.err, fun i => by rw [hsame.img], hsame.crc, hsame.frames, hsame.ch⟩

end Sys2Proof.Machine
end

section
/-! PROOFS. The aperture: register reads, operand writes, writes that are turned away, the command register and
the host's polling (spec/20_memory.md, spec/10_state.md section 6, spec/70_reset_and_hazards.md section 3). -/

namespace Sys2Proof.Machine

/-! ### Turns and commands -/

/-- The step that takes a write to CMD runs the command of its word (R36, R71). -/
theorem step_command {s : State} {w : Word} {rest : List BusEvent} (h : s.engineTurn = false)
    (hb : s.env.bus = .write .word Reg.cmd.offset w :: rest) : step s = command w (s.afterEvent rest) :=
  (step_event h hb).trans (busWrite_cmd w _)

/-- A word that decodes runs its command (R36, R81). -/
theorem command_of_decode {w : Word} {i : Instr} (h : decode w = .ok i) (s : State) : command w s = exec i s := by
  rw [command, h]

/-- Settles O6: the step runs the word written to CMD (`step_command`), and the word runs its command
(`command_of_decode`). -/
theorem stepRunsTheWrittenCommand : Obligations.StepRunsTheWrittenCommand :=
  fun _ _ _ _ hturn hbus hdecode => (step_command hturn hbus).trans (command_of_decode hdecode _)

/-- With a command put first the host moves next, whatever was pending. -/
theorem engineTurn_withCommandNext (s : State) (w : Word) : (s.withCommandNext w).engineTurn = false := by
  simp [State.engineTurn, State.withCommandNext]

/-- Taking the command off again leaves the state as it was. -/
theorem afterEvent_withCommandNext (s : State) (w : Word) : (s.withCommandNext w).afterEvent s.env.bus = s := rfl

/-- Settles O7: the word is the host's next event (`engineTurn_withCommandNext`), so the step runs its command
(`step_command`) on the state with that event taken off, which is the state itself. -/
theorem fetchedWordRunsAtOnce : Obligations.FetchedWordRunsAtOnce := by
  intro s nbits w i hdecode
  have hstep := step_command (engineTurn_withCommandNext s (BitVec.ofNat 32 w)) rfl
  rwa [afterEvent_withCommandNext, command_of_decode hdecode] at hstep

/-- Settles O9: the engine's turn is defined by FINISHING and the schedule (`engineTurn_ctl`, `step_engine`);
without an event and outside FINISHING the step is `step_idle`. -/
theorem engineStepsOnlyOnAPendingFinish : Obligations.EngineStepsOnlyOnAPendingFinish := by
  intro s
  refine ⟨engineTurn_ctl, fun hctl hready => step_engine ?_, fun hctl => step_idle (engineTurn_false_of_ctl hctl)⟩
  simpa [State.engineTurn, hctl] using hready

/-! ### Sizes -/

/-- Settles O43: arithmetic from the bounds of CAP (`params_cap_bounds`). -/
theorem windowHoldsTheWholeFile : Obligations.WindowHoldsTheWholeFile := by
  obtain ⟨hmin, hmax⟩ := params_cap_bounds
  refine ⟨hmin, hmax, rfl, ?_⟩
  unfold outWords fileSize
  omega

/-! ### Reads -/

/-- An aligned 32-bit read at a register's offset returns that register (R34, R67). -/
theorem busRead_offset (P : Params) (s : State) (r : Reg) : busRead P .word r.offset s = readReg P s r := by
  rw [busRead, if_pos (accessOk_offset r), readWord, regAt_eq_some_iff.2 rfl]

/-- SAMPLE_HI reads as its 16 bits with 0 above (R26). -/
theorem readReg_sampleHi_halves (P : Params) (s : State) :
    (readReg P s .sampleHi).extractLsb' 0 16 = s.sampleHi ∧ (readReg P s .sampleHi).extractLsb' 16 16 = 0 := by
  have hlt := s.sampleHi.isLt
  have hvalue : (readReg P s .sampleHi).toNat = s.sampleHi.toNat := BitVec.toNat_setWidth_of_le (by decide)
  exact ⟨extractLsb'_eq (by omega), extractLsb'_eq (show _ = 0 by omega)⟩

/-- Settles O40: the step is a read (`step_read`) of the register (`busRead_offset`), whose value is the field of
its name; the run counts saturate (`sat32_toNat`), and CAP and FILE_SIZE fit 32 bits. -/
theorem registerReadReturnsTheRegister : Obligations.RegisterReadReturnsTheRegister := by
  intro s r rest hturn hbus
  refine ⟨readReg params s r, by rw [step_read hturn hbus, busRead_offset], ?_⟩
  cases r
  case sampleHi => exact readReg_sampleHi_halves params s
  case runsF | runsD | runsT => exact sat32_toNat _
  case capacity => exact readReg_capacity_toNat s
  case fileSize => exact readReg_fileSize_toNat s
  all_goals rfl

/-- A malformed read returns 0 (R63). -/
theorem busRead_of_malformed {P : Params} {s : State} {size : AccessSize} {off : Offset}
    (h : size ≠ .word ∨ off.toNat % 4 ≠ 0) : busRead P size off s = 0 := by
  rw [busRead, accessOk_false_iff.2 h]
  rfl

/-- A read off the registers returns 0 outside the window, and in the window outside DONE (R66, R68). -/
theorem busRead_of_no_data {P : Params} {s : State} {size : AccessSize} {off : Offset} (hreg : regAt off = none)
    (h : windowIndex P off = none ∨ s.ctl ≠ .done) : busRead P size off s = 0 := by
  have hword : readWord P s off = 0 := by
    rw [readWord, hreg]
    cases hk : windowIndex P off with
    | none => rfl
    | some k => exact if_neg (h.resolve_left (by simp [hk]))
  rw [busRead, hword, ite_self]

/-- Settles O41: every read leaves the block alone (`step_read`); the data is 0 for a malformed access
(`busRead_of_malformed`) and where there is nothing to read (`busRead_of_no_data`). -/
theorem readsOutsideRegistersAndReadyImageGiveZero : Obligations.ReadsOutsideRegistersAndReadyImageGiveZero := by
  intro s size off rest hturn hbus
  refine ⟨busRead params size off s, step_read hturn hbus, busRead_of_malformed, fun hreg hoff => ?_,
    fun hoff hctl => busRead_of_no_data (regAt_eq_none_of_le (by omega)) (.inr hctl)⟩
  exact busRead_of_no_data (regAt_eq_none_iff.2 hreg) (.inl (if_neg (by omega)))

/-! ### Writes to operand registers -/

theorem Reg.offset_injective {r q : Reg} (h : r.offset = q.offset) : r = q :=
  Option.some.inj ((regAt_eq_some_iff.2 rfl).symm.trans (regAt_eq_some_iff.2 h))

/-- An aligned 32-bit write to an operand register stores, unless the engine is busy (R67, R255). -/
theorem busWrite_operand {r : Reg} {s : State} (hrw : r.access = .readWrite) (hctl : s.ctl ≠ .finishing) (v : Word) :
    busWrite .word r.offset v s = .next (writeOperand r v s) := by
  have hne : r.offset ≠ Reg.cmd.offset := fun h => by
    obtain rfl := Reg.offset_injective h
    cases hrw
  rw [busWrite, if_pos (accessOk_offset r), if_neg hne, writeElsewhere, if_neg hctl, regAt_eq_some_iff.2 rfl]
  exact congrArg _ (if_pos hrw)

/-- What every register reads after a write to an operand register: that one the stored value, every other what it
read before (R26, R67). -/
theorem readReg_writeOperand (P : Params) (r q : Reg) (v : Word) (s : State) :
    readReg P (writeOperand r v s) q =
      if q = r ∧ r.access = .readWrite then (if r = .sampleHi then (v.setWidth 16).setWidth 32 else v)
      else readReg P s q := by
  cases r <;> cases q <;> rfl

theorem readReg_writeOperand_of_ne {r q : Reg} (h : q ≠ r) (P : Params) (v : Word) (s : State) :
    readReg P (writeOperand r v s) q = readReg P s q := by
  rw [readReg_writeOperand, if_neg fun hq => h hq.1]

/-- Dropping the upper half of a word is masking it (R26). -/
theorem setWidth_low16 (v : Word) : (v.setWidth 16).setWidth 32 = v &&& 0x0000FFFF := by
  apply BitVec.eq_of_toNat_eq
  rw [BitVec.toNat_setWidth, BitVec.toNat_setWidth, BitVec.toNat_and]
  refine Eq.trans ?_ (Nat.and_two_pow_sub_one_eq_mod _ 16).symm
  omega

/-- Settles O44: the step stores the value (`busWrite_operand`); what the registers read afterwards is
`readReg_writeOperand`, and the rest of the block is left alone (`writeOperand_fields`). -/
theorem operandWriteIsReadBack : Obligations.OperandWriteIsReadBack := by
  intro s r v rest hturn hctl hrw hbus
  have hstep : step s = .next (writeOperand r v (s.afterEvent rest)) :=
    (step_event hturn hbus).trans (busWrite_operand (s := s.afterEvent rest) hrw hctl v)
  refine ⟨_, hstep, ?_, fun q hq => (readReg_writeOperand_of_ne hq params v _).trans (by cases q <;> rfl), ?_, ?_,
    fun c => (ch_writeOperand r v _ c).trans (ch_afterEvent rest s c), ?_, ?_, ?_⟩
  · rw [readReg_writeOperand, if_pos ⟨rfl, hrw⟩, setWidth_low16]
  all_goals simp only [writeOperand_fields, afterEvent_fields, implies_true]

/-! ### Writes that are turned away -/

/-- A write takes effect only at an offset of a register that is not read-only, by an accepted access; every other
only flags ILLEGAL (R63, R67, R68). -/
theorem busWrite_of_no_target {size : AccessSize} {off : Offset}
    (h : ∀ r : Reg, size = .word → off = r.offset → r.access = .readOnly) (v : Word) (s : State) :
    busWrite size off v s = .next (flagIllegal s) := by
  rcases busWrite_cases size off v s with ⟨i, hsize, hoff, -⟩ | ⟨r, hsize, hoff, hrw, -⟩ | ⟨-, he⟩
  · cases h .cmd hsize hoff
  · cases hrw.symm.trans (h r hsize hoff)
  · exact he

/-- Settles O45: in each of the three cases the write has no target (`busWrite_of_no_target`). -/
theorem badWritesOnlyFlagIllegal : Obligations.BadWritesOnlyFlagIllegal := by
  intro s size off v rest hturn hbus hbad
  refine (step_event hturn hbus).trans (busWrite_of_no_target (fun r hsize hoff => ?_) v _)
  rcases hbad with (hsize' | halign) | ⟨q, hq, hoff'⟩ | hreg
  · exact absurd hsize hsize'
  · exact absurd (hoff ▸ (Reg.offset_toNat r).1) halign
  · obtain rfl := Reg.offset_injective (hoff.symm.trans hoff')
    exact hq
  · exact absurd hoff (hreg r)

/-- In FINISHING every write but that of the RESET word to CMD only flags ILLEGAL (R104, R255). -/
theorem busWrite_busy {size : AccessSize} {off : Offset} {v : Word} {s : State} (hctl : s.ctl = .finishing)
    (h : ¬ (size = .word ∧ off = Reg.cmd.offset ∧ v = encode .reset)) :
    busWrite size off v s = .next (flagIllegal s) := by
  rcases busWrite_cases size off v s with ⟨i, hsize, hoff, hdecode, he⟩ | ⟨r, -, -, -, hne, -⟩ | ⟨-, he⟩
  · rw [he]
    refine exec_of_not_legal ?_
    cases i with
    | reset => exact absurd ⟨hsize, hoff, eq_encode_of_decode hdecode⟩ h
    | start | push | finish => simp [legalIn, hctl]
  · exact absurd hctl hne
  · exact he

/-- Settles O46: the first clause is `busWrite_busy`; the word of RESET resets the block (`step_command`), which
leaves no FINISH pending (`engineTurn_resetBlock`). -/
theorem busyTurnsEveryWriteAwayButReset : Obligations.BusyTurnsEveryWriteAwayButReset := by
  intro s size off v rest hturn hctl hbus
  refine ⟨fun h => (step_event hturn hbus).trans (busWrite_busy hctl h), ?_⟩
  rintro ⟨rfl, rfl, rfl⟩
  exact ⟨resetBlock (s.afterEvent rest), step_command hturn hbus, rfl, engineTurn_resetBlock _⟩

/-- Settles O47: the poll reads STATUS and stays exactly in FINISHING (`pollStatus_eq`). -/
theorem waitPollsUntilNotBusy : Obligations.WaitPollsUntilNotBusy := by
  intro s rest hturn hbus
  rw [step_event hturn hbus, performEvent, pollStatus_eq]
  rfl

/-! ### A pending FINISH completes -/

/-- In FINISHING an event that is no reset leaves the FINISH pending, with one event less to wait for; the events
to come are those left, and a WAIT before them if it was one (R72, R255). -/
theorem step_while_finishing {s : State} {e : BusEvent} {rest : List BusEvent} (hturn : s.engineTurn = false)
    (hctl : s.ctl = .finishing) (hbus : s.env.bus = e :: rest) (he : resets e = false) :
    ∃ t, step s = .next t ∧ t.ctl = .finishing ∧ t.env.engineWait = s.env.engineWait - 1 ∧
      (t.env.bus = rest ∨ t.env.bus = .wait :: rest) := by
  rw [step_event hturn hbus]
  cases e with
  | write size off v =>
    have hcommand : ¬ (size = .word ∧ off = Reg.cmd.offset ∧ v = encode .reset) := by
      rintro ⟨rfl, rfl, rfl⟩
      cases he
    exact ⟨_, busWrite_busy (s := s.afterEvent rest) hctl hcommand, hctl, rfl, .inl rfl⟩
  | read size off => exact ⟨_, rfl, hctl, rfl, .inl rfl⟩
  | wait =>
    refine ⟨_, rfl, ?_, ?_, .inr ?_⟩ <;> rw [pollStatus_eq]
    · exact hctl
    · rfl
    · exact if_pos hctl
  | hardwareReset => cases he

/-- On the engine's turn one step ends the encode (R181). -/
theorem run_one_of_engineTurn {s : State} (h : s.engineTurn = true) :
    ∃ t, core.run 1 s = .next t ∧ (t.ctl = .done ∨ t.ctl = .error) := by
  obtain ⟨-, -, -, -, -, -, -, -, -, -, -, hends, -⟩ := engineStep_frame params s
  exact ⟨_, run_succ core 0 (step_engine h), hends⟩

/-- Settles O54: induction on the events the engine waits for.  On its turn the engine step ends in DONE or ERROR
(`run_one_of_engineTurn`); before it each event leaves the FINISH pending with a shorter wait
(`step_while_finishing`). -/
theorem finishCompletesUnlessReset : Obligations.FinishCompletesUnlessReset := by
  intro s hctl hsafe
  generalize hwait : s.env.engineWait = n at hsafe ⊢
  induction n generalizing s with
  | zero =>
    obtain ⟨t, ht⟩ := run_one_of_engineTurn (s := s) (by simp [State.engineTurn, hctl, hwait])
    exact ⟨1, t, le_rfl, ht⟩
  | succ n ih =>
    cases hbus : s.env.bus with
    | nil =>
      obtain ⟨t, ht⟩ := run_one_of_engineTurn (s := s) (by simp [State.engineTurn, hctl, hbus])
      exact ⟨1, t, Nat.le_add_left _ _, ht⟩
    | cons e rest =>
      have hturn : s.engineTurn = false := by simp [State.engineTurn, hwait, hbus]
      rw [hbus, List.take_succ_cons, List.forall_mem_cons] at hsafe
      obtain ⟨he, hrest⟩ := hsafe
      obtain ⟨u, hu, hctl', hwait', hbus'⟩ := step_while_finishing hturn hctl hbus he
      have hsafe' : ∀ e ∈ u.env.bus.take n, resets e = false := by
        rcases hbus' with hbus' | hbus' <;> rw [hbus']
        · exact hrest
        · cases n with
          | zero => simp
          | succ n =>
            rw [List.take_succ_cons, List.forall_mem_cons]
            exact ⟨rfl, fun e' he' => hrest e' (List.take_subset_take_left _ n.le_succ he')⟩
      obtain ⟨k, t, hk, hrun, hends⟩ := ih u hctl' (by omega) hsafe'
      exact ⟨k + 1, t, by omega, (run_succ core k hu).trans hrun, hends⟩

end Sys2Proof.Machine
end

section
/-! PROOFS. What no step changes: safety of runs, the sticky flag, the error context, the latched metadata, the
output and the operand registers (spec/10_state.md, spec/60_exceptions.md, spec/70_reset_and_hazards.md). -/

namespace Sys2Proof.Machine

/-! ### Safety -/

/-- Settles O10: induction on the length of the run; every step answers a next state (`step_next`). -/
theorem everyRunIsSafe : Obligations.EveryRunIsSafe := by
  intro n
  induction n with
  | zero => exact fun s => ⟨s, rfl⟩
  | succ n ih =>
    intro s
    obtain ⟨t, ht⟩ := step_next s
    obtain ⟨u, hu⟩ := ih t
    exact ⟨u, (run_succ core n ht).trans hu⟩

/-! ### What commands leave alone -/

section
variable {i : Instr} {s t : State}

/-- Commands but RESET leave a set ILLEGAL set (R24). -/
theorem exec_keeps_illegal (ht : exec i s = .next t) (hi : i ≠ .reset) (h : s.illegal = true) :
    t.illegal = true := by
  rcases exec_cases i s with ⟨hr, -⟩ | ⟨-, -, he⟩ | ⟨-, -, -, he⟩ | ⟨-, -, -, he⟩ | ⟨-, -, he⟩ | ⟨-, -, he⟩
  · exact absurd hr hi
  all_goals
    rw [he] at ht
    cases ht
    simp [h]

/-- Commands but START and RESET leave the latched metadata alone, and so does START in FINISHING (R28). -/
theorem exec_keeps_latched (ht : exec i s = .next t) (hi : i ≠ .reset) (hs : i ≠ .start ∨ s.ctl = .finishing) :
    t.latched = s.latched := by
  rcases exec_cases i s with ⟨hr, -⟩ | ⟨hr, hctl, -⟩ | ⟨-, -, -, he⟩ | ⟨-, -, -, he⟩ | ⟨-, -, he⟩ | ⟨-, -, he⟩
  · exact absurd hr hi
  · exact absurd hr (hs.resolve_right hctl)
  all_goals
    rw [he] at ht
    cases ht
    simp

/-- A command leaves the image and the checksum alone or clears them (R33). -/
theorem exec_output (ht : exec i s = .next t) :
    (t.img = s.img ∧ t.crc = s.crc) ∨
    ((i = .reset ∨ i = .start ∧ s.ctl ≠ .finishing) ∧ t.img = Memory.clear ∧ t.crc = 0) := by
  rcases exec_cases i s with ⟨hi, he⟩ | ⟨hi, hctl, he⟩ | ⟨-, -, -, he⟩ | ⟨-, -, -, he⟩ | ⟨-, -, he⟩ | ⟨-, -, he⟩ <;>
    rw [he] at ht <;> cases ht
  · exact .inr ⟨.inl hi, rfl, rfl⟩
  · exact .inr ⟨.inr ⟨hi, hctl⟩, by simp⟩
  all_goals exact .inl (by simp)

/-- Commands but RESET leave the operand registers alone (R26, R27). -/
theorem exec_keeps_operands (ht : exec i s = .next t) (hi : i ≠ .reset) {r : Reg} (hr : r.access = .readWrite)
    (P : Params) : readReg P t r = readReg P s r := by
  obtain ⟨hlo, hhi, htag, htrack, hvehicle, hchar, hmanual⟩ :
      t.sampleLo = s.sampleLo ∧ t.sampleHi = s.sampleHi ∧ t.sampleTag = s.sampleTag ∧ t.metaTrack = s.metaTrack ∧
        t.metaVehicle = s.metaVehicle ∧ t.metaChar = s.metaChar ∧ t.metaManual = s.metaManual := by
    rcases exec_cases i s with ⟨hr, -⟩ | ⟨-, -, he⟩ | ⟨-, -, -, he⟩ | ⟨-, -, -, he⟩ | ⟨-, -, he⟩ | ⟨-, -, he⟩
    · exact absurd hr hi
    all_goals
      rw [he] at ht
      cases ht
      simp
  cases r
  case sampleLo => exact hlo
  case sampleHi => exact congrArg (BitVec.setWidth 32) hhi
  case sampleTag => exact htag
  case metaTrack => exact htrack
  case metaVehicle => exact hvehicle
  case metaChar => exact hchar
  case metaManual => exact hmanual
  all_goals cases hr

/-- The number of runs is that of the channels' run counts (R32). -/
theorem totalRuns_congr (h : ∀ c, (t.ch c).nRuns = (s.ch c).nRuns) : t.totalRuns = s.totalRuns := by
  have hface : t.faceCh.nRuns = s.faceCh.nRuns := h .face
  have hdir : t.dirCh.nRuns = s.dirCh.nRuns := h .dir
  have htrick : t.trickCh.nRuns = s.trickCh.nRuns := h .trick
  rw [State.totalRuns, State.totalRuns, hface, hdir, htrick]

/-- An accepted sample never lowers the number of runs (R31, R141). -/
theorem totalRuns_le_acceptSample (p : Sample) (s : State) : s.totalRuns ≤ (acceptSample p s).totalRuns := by
  have hface := rleStep_nRuns_le 255 (faceValue p) s.faceCh
  have hdir := rleStep_nRuns_le 255 (dirValue p) s.dirCh
  have htrick := rleStep_nRuns_le 255 (trickValue p) s.trickCh
  simp only [State.totalRuns, acceptSample_fields]
  omega

/-- Commands but START and RESET never lower the number of runs (R32). -/
theorem exec_totalRuns_le (ht : exec i s = .next t) (hi : i ≠ .reset) (hs : i ≠ .start) :
    s.totalRuns ≤ t.totalRuns := by
  rcases exec_cases i s with ⟨hr, -⟩ | ⟨hr, -⟩ | ⟨-, -, -, he⟩ | ⟨-, -, -, he⟩ | ⟨-, -, he⟩ | ⟨-, -, he⟩
  · exact absurd hr hi
  · exact absurd hr hs
  all_goals
    rw [he] at ht
    cases ht
  · exact totalRuns_le_acceptSample _ _
  all_goals exact le_rfl

end

/-- A command that is issued and is not RESET makes no reset next. -/
theorem ne_reset_of_resetNext {s : State} {i : Instr} (h : s.resetNext = (i == .reset))
    (hno : s.resetNext = false) : i ≠ .reset := by
  rintro rfl
  cases h.symm.trans hno

/-! ### The sticky flag -/

/-- Settles O48: of the step's cases only RESET and the reset input clear ILLEGAL; the other commands keep it
(`exec_keeps_illegal`). -/
theorem onlyResetClearsIllegal : Obligations.OnlyResetClearsIllegal := by
  intro s t ht hillegal
  cases step_cases ht with
  | engine _ _ hno heq =>
    obtain ⟨hkeeps, -⟩ := engineStep_frame params s
    exact iff_of_true (by rw [heq, hkeeps, hillegal]) hno
  | command i rest _ _ hreset heq =>
    by_cases hi : i = .reset
    · subst hi
      cases heq
      exact iff_of_false Bool.false_ne_true (by rw [hreset]; decide)
    · exact iff_of_true (exec_keeps_illegal heq hi hillegal) (by rw [hreset, beq_eq_false_iff_ne]; exact hi)
  | hardwareReset rest _ _ hreset heq =>
    subst heq
    exact iff_of_false Bool.false_ne_true (by rw [hreset]; decide)
  | operand r v rest _ _ _ _ _ hno heq => exact iff_of_true (by simp [heq, hillegal]) hno
  | illegal rest _ _ hno heq => exact iff_of_true (by simp [heq]) hno
  | outside env _ _ hno heq => exact iff_of_true (by simp [heq, hillegal]) hno

/-! ### Leaving ERROR -/

/-- Settles O49: in ERROR it is not the engine's turn, every command but START and RESET only flags ILLEGAL
(`exec_of_not_legal`), and no other event touches the error or the encode. -/
theorem onlyStartAndResetLeaveError : Obligations.OnlyStartAndResetLeaveError := by
  intro s t ht hctl hstart hno
  cases step_cases ht with
  | engine hturn _ _ _ => cases hctl.symm.trans (engineTurn_ctl hturn)
  | command i rest _ hissued hreset heq =>
    have hillegal : legalIn i s.ctl = false := by
      cases i with
      | reset => exact absurd rfl (ne_reset_of_resetNext hreset hno)
      | start => exact absurd hissued hstart
      | push | finish => rw [hctl]; rfl
    rw [exec_of_not_legal (s := s.afterEvent rest) hillegal] at heq
    cases heq
    simp [hctl, ch_flagIllegal, ch_afterEvent]
  | hardwareReset rest _ _ hreset _ => cases hreset.symm.trans hno
  | operand r v rest _ _ _ _ _ _ heq => simp [heq, hctl, ch_writeOperand, ch_afterEvent]
  | illegal rest _ _ _ heq => simp [heq, hctl, ch_flagIllegal, ch_afterEvent]
  | outside env _ _ _ heq =>
    subst heq
    exact ⟨hctl, rfl, rfl, rfl, rfl, rfl, rfl, fun c => by cases c <;> rfl, rfl, rfl⟩

/-! ### The latched metadata -/

/-- Settles O50: the commands are `exec_keeps_latched`, the engine `engineStep_frame`; nothing else touches the
latch. -/
theorem metadataIsFixedForTheWholeEncode : Obligations.MetadataIsFixedForTheWholeEncode := by
  intro s t ht hno hstart
  cases step_cases ht with
  | engine _ _ _ heq =>
    obtain ⟨-, hkeeps, -⟩ := engineStep_frame params s
    rw [heq, hkeeps]
  | command i rest _ hissued hreset heq =>
    rw [hissued, ne_eq, Option.some.injEq] at hstart
    exact exec_keeps_latched (s := s.afterEvent rest) heq (ne_reset_of_resetNext hreset hno) hstart
  | hardwareReset rest _ _ hreset _ => cases hreset.symm.trans hno
  | operand r v rest _ _ _ _ _ _ heq => simp [heq]
  | illegal rest _ _ _ heq => simp [heq]
  | outside env _ _ _ heq => simp [heq]

/-! ### The output -/

/-- The engine writes the output only if it ends in DONE (R193). -/
theorem engineStep_output (P : Params) (s : State) :
    (engineStep P s).ctl = .done ∨ (engineStep P s).img = s.img ∧ (engineStep P s).crc = s.crc := by
  rcases engineStep_cases P s with ⟨-, he⟩ | ⟨-, -, he⟩ | ⟨-, -, he⟩ <;> rw [he]
  · exact .inr ⟨rfl, rfl⟩
  · exact .inr ⟨rfl, rfl⟩
  · exact .inl rfl

/-- Settles O51: the engine is `engineStep_output`, the commands are `exec_output`, the reset input clears as RESET
does, and no other event touches the output. -/
theorem onlyTheEngineFillsTheImage : Obligations.OnlyTheEngineFillsTheImage := by
  intro s t ht
  cases step_cases ht with
  | engine hturn _ _ heq =>
    subst heq
    rcases engineStep_output params s with hdone | ⟨himg, hcrc⟩
    · exact .inl ⟨hturn, hdone⟩
    · exact .inr (.inl ⟨fun a => by rw [himg], hcrc⟩)
  | command i rest _ hissued hreset heq =>
    rcases exec_output heq with ⟨himg, hcrc⟩ | ⟨hi, himg, hcrc⟩
    · exact .inr (.inl ⟨fun a => by rw [himg]; rfl, hcrc⟩)
    · refine .inr (.inr ⟨?_, fun a => by rw [himg, Memory.read_clear], hcrc⟩)
      rcases hi with rfl | ⟨rfl, hctl⟩
      · exact .inr hreset
      · exact .inl ⟨hissued, hctl⟩
  | hardwareReset rest _ _ hreset heq =>
    subst heq
    exact .inr (.inr ⟨.inr hreset, Memory.read_clear, rfl⟩)
  | operand r v rest _ _ _ _ _ _ heq => exact .inr (.inl (by simp [heq]))
  | illegal rest _ _ _ heq => exact .inr (.inl (by simp [heq]))
  | outside env _ _ _ heq => exact .inr (.inl (by simp [heq]))

/-! ### The operand registers -/

/-- The engine leaves the operand registers alone (R181). -/
theorem readReg_engineStep (P : Params) (s : State) {r : Reg} (hr : r.access = .readWrite) :
    readReg P (engineStep P s) r = readReg P s r := by
  rcases engineStep_cases P s with ⟨-, he⟩ | ⟨-, -, he⟩ | ⟨-, -, he⟩ <;> rw [he] <;> cases r
  all_goals cases hr
  all_goals rfl

/-- Settles O52: the commands are `exec_keeps_operands`, the engine `readReg_engineStep`; a write to another
operand register is `readReg_writeOperand_of_ne`. -/
theorem operandRegistersChangeOnlyByTheirOwnWrite : Obligations.OperandRegistersChangeOnlyByTheirOwnWrite := by
  intro s t r ht hrw hno hnotOwn
  have hafter (rest : List BusEvent) : readReg params (s.afterEvent rest) r = readReg params s r := by
    cases r <;> rfl
  cases step_cases ht with
  | engine _ _ _ heq => exact heq ▸ readReg_engineStep params s hrw
  | command i rest _ _ hreset heq =>
    exact (exec_keeps_operands heq (ne_reset_of_resetNext hreset hno) hrw params).trans (hafter rest)
  | hardwareReset rest _ _ hreset _ => cases hreset.symm.trans hno
  | operand q v rest _ hevent _ _ _ _ heq =>
    have hne : r ≠ q := by
      rintro rfl
      exact hnotOwn .word v (by rw [hevent]; rfl)
    exact heq ▸ (readReg_writeOperand_of_ne hne params v _).trans (hafter rest)
  | illegal rest _ _ _ heq =>
    subst heq
    cases r
    all_goals cases hrw
    all_goals rfl
  | outside env _ _ _ heq => subst heq; cases r <;> rfl

/-! ### The overflow indication -/

/-- The number of runs never falls but by START or a reset (R32). -/
theorem step_totalRuns_le {s t : State} (ht : step s = .next t) (hstart : s.commandIssued ≠ some .start)
    (hno : s.resetNext = false) : s.totalRuns ≤ t.totalRuns := by
  cases step_cases ht with
  | engine _ _ _ heq =>
    obtain ⟨-, -, -, -, -, -, -, -, -, -, -, -, -, hruns⟩ := engineStep_frame params s
    rw [heq, totalRuns_congr hruns]
  | command i rest _ hissued hreset heq =>
    refine exec_totalRuns_le (s := s.afterEvent rest) heq (ne_reset_of_resetNext hreset hno) ?_
    rintro rfl
    exact hstart hissued
  | hardwareReset rest _ _ hreset _ => cases hreset.symm.trans hno
  | operand r v rest _ _ _ _ _ _ heq => simp [heq, State.totalRuns]
  | illegal rest _ _ _ heq => simp [heq, State.totalRuns]
  | outside env _ _ _ heq => simp [heq, State.totalRuns]

/-- With a sample counted the engine step overflows exactly if OVF is set, and succeeds exactly if it is clear
(R185). -/
theorem engineStep_verdict (P : Params) {s : State} (hframes : s.frames ≠ 0) :
    (((engineStep P s).ctl = .error ∧ (engineStep P s).err = .inputSectionOverflow) ↔ s.ovf P = true) ∧
    ((engineStep P s).ctl = .done ↔ s.ovf P = false) := by
  have hdone : (engineStep P s).ctl = .done ↔ s.ovf P = false := by
    rw [engineStep_done_iff, ovf_eq_false_iff, and_iff_right hframes]
  refine ⟨?_, hdone⟩
  cases hovf : s.ovf P with
  | true =>
    rw [engineStep_of_overflow hframes ((ovf_eq_true_iff P s).1 hovf)]
    exact iff_of_true ⟨rfl, rfl⟩ rfl
  | false => simp [hdone.2 hovf]

/-- Settles O53: OVF compares the number of runs with CAP, and that number never falls (`step_totalRuns_le`); the
verdict is `engineStep_verdict`. -/
theorem ovfForetellsTheVerdict : Obligations.OvfForetellsTheVerdict := by
  refine ⟨fun s t ht hovf hstart hno => ?_, fun s t ht hturn hframes => ?_⟩
  · have hruns := step_totalRuns_le ht hstart hno
    rw [ovf_eq_true_iff] at hovf ⊢
    omega
  · obtain rfl := Host.Outcome.next.inj ((step_engine hturn).symm.trans ht)
    exact engineStep_verdict params hframes

end Sys2Proof.Machine
end

section
/-! PROOFS. The error invariant, the image invariant, and the three invariants at reset (spec/60_exceptions.md,
spec/44_section_checksum.md section 3, spec/70_reset_and_hazards.md section 1). -/

namespace Sys2Proof.Machine

/-! ### The error invariant -/

/-- Every error register reads 0: what `errContextOk` asks for code NONE (R25, R220). -/
def NoError (s : State) : Prop :=
  s.err = .none ∧ s.errFields = 0 ∧ s.errTag = 0 ∧ s.errRawLo = 0 ∧ s.errRawHi = 0 ∧ s.errBytes = 0

/-- Outside ERROR the error invariant says that there is no error. -/
theorem errorInv_iff_noError {s : State} (h : s.ctl ≠ .error) : ErrorInv s ↔ NoError s := by
  rw [ErrorInv, iff_false_left h, not_not]
  refine and_congr_right fun herr => ?_
  rw [errContextOk, herr]

/-- The invariant speaks of the control state, the error registers, FRAMES and the number of runs only. -/
theorem ErrorInv_of_same_error {s t : State} (h : ErrorInv s) (hctl : t.ctl = s.ctl) (herr : t.err = s.err)
    (hfields : t.errFields = s.errFields) (htag : t.errTag = s.errTag) (hlo : t.errRawLo = s.errRawLo)
    (hhi : t.errRawHi = s.errRawHi) (hbytes : t.errBytes = s.errBytes) (hframes : t.frames = s.frames)
    (hruns : t.totalRuns = s.totalRuns) : ErrorInv t := by
  unfold ErrorInv errContextOk at h ⊢
  rwa [hctl, herr, hfields, htag, hlo, hhi, hbytes, hframes, hruns]

theorem flagIllegal_keeps_ErrorInv {s : State} (h : ErrorInv s) : ErrorInv (flagIllegal s) :=
  ErrorInv_of_same_error h rfl rfl rfl rfl rfl rfl rfl rfl rfl

theorem afterEvent_keeps_ErrorInv {s : State} (h : ErrorInv s) (rest : List BusEvent) :
    ErrorInv (s.afterEvent rest) :=
  ErrorInv_of_same_error h rfl rfl rfl rfl rfl rfl rfl rfl rfl

theorem writeOperand_keeps_ErrorInv {s : State} (h : ErrorInv s) (r : Reg) (v : Word) :
    ErrorInv (writeOperand r v s) := by
  apply ErrorInv_of_same_error h <;> simp [State.totalRuns]

theorem ErrorInv_resetBlock (s : State) : ErrorInv (resetBlock s) :=
  (errorInv_iff_noError (s := resetBlock s) (fun h => by cases h)).2 ⟨rfl, rfl, rfl, rfl, rfl, rfl⟩

/-- START leaves no error, or INVALID_METADATA with its mask of four bits and no sample counted (R101, R110). -/
theorem ErrorInv_beginEncode (P : Params) (s : State) : ErrorInv (beginEncode P s) := by
  rcases beginEncode_cases P s with ⟨-, he⟩ | ⟨hbad, he⟩ <;> rw [he]
  · exact (errorInv_iff_noError (fun h => by cases h)).2 ⟨rfl, rfl, rfl, rfl, rfl, rfl⟩
  · exact ⟨iff_of_true rfl (fun h => by cases h), hbad, metaBad_toNat_lt P s, rfl, rfl, rfl, rfl, rfl⟩

/-- A rejected sample leaves MALFORMED_RECORD with the words the failing FieldCheck read (R122). -/
theorem ErrorInv_rejectSample {s : State} (h : fieldCheck s.sample ≠ 0) :
    ErrorInv (rejectSample (fieldCheck s.sample) s) := by
  have hlow : (s.sampleHi.setWidth 32).setWidth 16 = s.sampleHi := by simp
  have hlt : (s.sampleHi.setWidth 32).toNat < 2 ^ 16 := by
    rw [BitVec.toNat_setWidth_of_le (by decide)]
    exact s.sampleHi.isLt
  refine ⟨iff_of_true rfl (fun h => by cases h), h, ?_, hlt, rfl⟩
  simp only [rejectSample_fields, hlow]
  rfl

/-- From a state without an error to another. -/
theorem ErrorInv_of_noError {s t : State} (h : ErrorInv s) (hs : s.ctl ≠ .error) (ht : t.ctl ≠ .error)
    (herr : t.err = s.err) (hfields : t.errFields = s.errFields) (htag : t.errTag = s.errTag)
    (hlo : t.errRawLo = s.errRawLo) (hhi : t.errRawHi = s.errRawHi) (hbytes : t.errBytes = s.errBytes) :
    ErrorInv t := by
  rw [errorInv_iff_noError hs] at h
  rwa [errorInv_iff_noError ht, NoError, herr, hfields, htag, hlo, hhi, hbytes]

theorem exec_keeps_ErrorInv {i : Instr} {s t : State} (h : ErrorInv s) (ht : exec i s = .next t) : ErrorInv t := by
  rcases exec_cases i s with
    ⟨-, he⟩ | ⟨-, -, he⟩ | ⟨-, hctl, -, he⟩ | ⟨-, -, hbad, he⟩ | ⟨-, hctl, he⟩ | ⟨-, -, he⟩ <;>
    rw [he] at ht <;> cases ht
  · exact ErrorInv_resetBlock s
  · exact ErrorInv_beginEncode params s
  · apply ErrorInv_of_noError h <;> simp [hctl]
  · exact ErrorInv_rejectSample hbad
  · apply ErrorInv_of_noError h <;> simp [hctl]
  · exact flagIllegal_keeps_ErrorInv h

/-- The engine's step on a pending FINISH raises an error with its context, or none was there and none is raised
(R182, R185). -/
theorem engineStep_keeps_ErrorInv {s : State} (h : ErrorInv s) (hctl : s.ctl = .finishing) :
    ErrorInv (engineStep params s) := by
  have hlength := sectionBytes_sealChannels_length s
  have hruns : (sealChannels s).totalRuns = s.totalRuns := by simp [State.totalRuns]
  rcases engineStep_cases params s with ⟨hzero, he⟩ | ⟨-, hover, he⟩ | ⟨-, -, he⟩ <;> rw [he]
  · exact ⟨iff_of_true rfl (fun h => by cases h), rfl, rfl, rfl, rfl, rfl, hzero⟩
  · rw [hlength, ← hruns] at hover ⊢
    exact ⟨iff_of_true rfl (fun h => by cases h), rfl, rfl, rfl, rfl, rfl, hover⟩
  · apply ErrorInv_of_noError h <;> simp [hctl]

/-- Settles O57: each case of the step keeps the invariant: commands (`exec_keeps_ErrorInv`), the engine
(`engineStep_keeps_ErrorInv`), and events that leave everything it speaks of alone (`ErrorInv_of_same_error`). -/
theorem stepKeepsErrorInv : Obligations.StepKeepsErrorInv := by
  intro s t h ht
  cases step_cases ht with
  | engine hturn _ _ heq => exact heq ▸ engineStep_keeps_ErrorInv h (engineTurn_ctl hturn)
  | command i rest _ _ _ heq => exact exec_keeps_ErrorInv (afterEvent_keeps_ErrorInv h rest) heq
  | hardwareReset rest _ _ _ heq => exact heq ▸ ErrorInv_resetBlock _
  | operand r v rest _ _ _ _ _ _ heq =>
    exact heq ▸ writeOperand_keeps_ErrorInv (afterEvent_keeps_ErrorInv h rest) r v
  | illegal rest _ _ _ heq => exact heq ▸ flagIllegal_keeps_ErrorInv (afterEvent_keeps_ErrorInv h rest)
  | outside env _ _ _ heq => exact heq ▸ ErrorInv_of_same_error h rfl rfl rfl rfl rfl rfl rfl rfl rfl

/-! ### The image invariant -/

/-- With the output clear, outside DONE, the invariant holds (R33). -/
theorem ImageInv_of_clear {t : State} (hctl : t.ctl ≠ .done) (himg : t.img = Memory.clear) (hcrc : t.crc = 0) :
    ImageInv t :=
  ⟨by rw [himg, Memory.wf_clear], fun _ => ⟨himg, hcrc⟩, fun h => absurd h hctl⟩

/-- Outside DONE a step that does not touch the output keeps the invariant. -/
theorem ImageInv_of_not_done {s t : State} (h : ImageInv s) (hs : s.ctl ≠ .done) (ht : t.ctl ≠ .done)
    (himg : t.img = s.img) (hcrc : t.crc = s.crc) : ImageInv t := by
  obtain ⟨-, hclear, -⟩ := h
  obtain ⟨himg', hcrc'⟩ := hclear hs
  exact ImageInv_of_clear ht (himg.trans himg') (hcrc.trans hcrc')

/-- The invariant speaks of the control state, the output, FRAMES, the channels and the latched metadata only. -/
theorem ImageInv_of_same_output {s t : State} (h : ImageInv s) (hctl : t.ctl = s.ctl) (himg : t.img = s.img)
    (hcrc : t.crc = s.crc) (hframes : t.frames = s.frames) (hlatched : t.latched = s.latched)
    (hch : ∀ c, t.ch c = s.ch c) : ImageInv t := by
  obtain ⟨himage, hsection⟩ := imageBytes_congr (P := params) hlatched fun c => congrArg Channel.sealed (hch c)
  have hruns : t.totalRuns = s.totalRuns := totalRuns_congr fun c => congrArg Channel.nRuns (hch c)
  unfold ImageInv at h ⊢
  simpa only [hctl, himg, hcrc, hframes, hch, himage, hsection, hruns] using h

theorem flagIllegal_keeps_ImageInv {s : State} (h : ImageInv s) : ImageInv (flagIllegal s) :=
  ImageInv_of_same_output h rfl rfl rfl rfl rfl (ch_flagIllegal s)

theorem afterEvent_keeps_ImageInv {s : State} (h : ImageInv s) (rest : List BusEvent) :
    ImageInv (s.afterEvent rest) :=
  ImageInv_of_same_output h rfl rfl rfl rfl rfl (ch_afterEvent rest s)

theorem writeOperand_keeps_ImageInv {s : State} (h : ImageInv s) (r : Reg) (v : Word) :
    ImageInv (writeOperand r v s) := by
  apply ImageInv_of_same_output h <;> simp [ch_writeOperand]

theorem ImageInv_resetBlock (s : State) : ImageInv (resetBlock s) :=
  ImageInv_of_clear (fun h => by cases h) rfl rfl

/-- START clears the output and never ends in DONE (R101). -/
theorem ImageInv_beginEncode (P : Params) (s : State) : ImageInv (beginEncode P s) := by
  rcases beginEncode_cases P s with ⟨-, he⟩ | ⟨-, he⟩ <;> rw [he] <;>
    exact ImageInv_of_clear (fun h => by cases h) rfl rfl

theorem exec_keeps_ImageInv {i : Instr} {s t : State} (h : ImageInv s) (ht : exec i s = .next t) : ImageInv t := by
  rcases exec_cases i s with
    ⟨-, he⟩ | ⟨-, -, he⟩ | ⟨-, hctl, -, he⟩ | ⟨-, hctl, -, he⟩ | ⟨-, hctl, he⟩ | ⟨-, -, he⟩ <;>
    rw [he] at ht <;> cases ht
  · exact ImageInv_resetBlock s
  · exact ImageInv_beginEncode params s
  · apply ImageInv_of_not_done h <;> simp [hctl]
  · apply ImageInv_of_not_done h <;> simp [hctl]
  · apply ImageInv_of_not_done h <;> simp [hctl]
  · exact flagIllegal_keeps_ImageInv h

/-- The engine leaves a clear output, or ends in DONE with the image of the sealed channels, which are its own
(R193). -/
theorem engineStep_keeps_ImageInv {s : State} (h : ImageInv s) (hctl : s.ctl = .finishing) :
    ImageInv (engineStep params s) := by
  have hlength := sectionBytes_sealChannels_length s
  rcases engineStep_cases params s with ⟨-, he⟩ | ⟨-, -, he⟩ | ⟨hframes, hfits, he⟩
  · rw [he]
    apply ImageInv_of_not_done h <;> simp [hctl]
  · rw [he]
    apply ImageInv_of_not_done h <;> simp [hctl]
  · have hdone : (engineStep params s).ctl = .done := by rw [he]
    have hch : ∀ c, (engineStep params s).ch c = (sealChannels s).ch c := fun c => by rw [he]; cases c <;> rfl
    have hruns : (engineStep params s).totalRuns = s.totalRuns :=
      totalRuns_congr fun c => by rw [hch, sealChannels_ch, closeRun_nRuns]
    obtain ⟨-, hlatched, hframes', -⟩ := engineStep_frame params s
    obtain ⟨himage, hsection⟩ :=
      imageBytes_congr (P := params) (s := engineStep params s) (t := sealChannels s) hlatched
        fun c => congrArg Channel.sealed (hch c)
    obtain ⟨himg, hcrc, -⟩ := engineStep_output_of_done hdone
    refine ⟨?_, fun h => absurd hdone h, fun _ => ⟨hframes' ▸ hframes, fun c => ?_, by omega, ?_, ?_⟩⟩
    · rw [he]
      exact Memory.wf_load 0 _
    · rw [hch, sealChannels_ch, closeRun_curCnt]
    · rwa [himage]
    · rw [hcrc, hsection]

/-- Settles O58: each case of the step keeps the invariant: commands (`exec_keeps_ImageInv`), the engine
(`engineStep_keeps_ImageInv`), and events that leave everything it speaks of alone (`ImageInv_of_same_output`). -/
theorem stepKeepsImageInv : Obligations.StepKeepsImageInv := by
  intro s t h ht
  cases step_cases ht with
  | engine hturn _ _ heq => exact heq ▸ engineStep_keeps_ImageInv h (engineTurn_ctl hturn)
  | command i rest _ _ _ heq => exact exec_keeps_ImageInv (afterEvent_keeps_ImageInv h rest) heq
  | hardwareReset rest _ _ _ heq => exact heq ▸ ImageInv_resetBlock _
  | operand r v rest _ _ _ _ _ _ heq =>
    exact heq ▸ writeOperand_keeps_ImageInv (afterEvent_keeps_ImageInv h rest) r v
  | illegal rest _ _ _ heq => exact heq ▸ flagIllegal_keeps_ImageInv (afterEvent_keeps_ImageInv h rest)
  | outside env _ _ _ heq =>
    exact heq ▸ ImageInv_of_same_output h rfl rfl rfl rfl rfl fun c => by cases c <;> rfl

/-! ### The invariants at reset -/

/-- The reset block is the reset state when the world outside is as at reset. -/
theorem resetBlock_reset : resetBlock State.reset = State.reset := rfl

/-- Settles O55: the three invariants hold of every reset block (`EncoderInv_resetBlock`, `ErrorInv_resetBlock`,
`ImageInv_resetBlock`), and the reset state is one. -/
theorem invariantsHoldAtReset : Obligations.InvariantsHoldAtReset := by
  rw [Obligations.InvariantsHoldAtReset, ← resetBlock_reset]
  exact ⟨EncoderInv_resetBlock _, ErrorInv_resetBlock _, ImageInv_resetBlock _⟩

end Sys2Proof.Machine
end
